-- ==== Sys2Proof/Word.lean ====
section
/-! DEFINITION. The word types of the machine (00_scope.md R6, R8, R9; every value is unsigned). -/

namespace Sys2Proof

/-- 8 bits: a general register, a timer, a byte of memory, an immediate `kk`. -/
abbrev Byte := BitVec 8

/-- 16 bits: an instruction word, PC, the I register, a stack slot, the key mask. -/
abbrev Word := BitVec 16

/-- 4 bits: the opcode nibble, the height `n` of DRAW (R111). -/
abbrev Nibble := BitVec 4

/-- 12 bits: the address field `nnn` (R111). -/
abbrev Addr := BitVec 12

/-- A register number, the fields `x` and `y` (R30, R111): 16 registers, all of them real. -/
abbrev Reg := Fin 16

/-- A key number 0x0 to 0xF (R40). -/
abbrev Key := Fin 16

end Sys2Proof
end

