-- ==== Sys2Proof/Config.lean ====
section
/-! DEFINITION. What one machine instance fixes (00_scope.md R7) and the one free value (41_alu.md R193). -/

namespace Sys2Proof

/-- The parameter ALU_8_MAP (R7, R118, R119, D6): what 8xy7 and 8xyE mean. OPEN in the spec; both are modelled. -/
inductive Alu8Map where
  /-- 8xy7 is SHIFT_LEFT, 8xyE is a decode failure (R118). -/
  | table
  /-- 8xy7 is SUB_REVERSE, 8xyE is SHIFT_LEFT (R119). -/
  | conventional
  deriving DecidableEq, Repr

/-- The parameter KEY_WAIT_MODE (R7, R293, D8): what KEY_WAIT waits for. OPEN in the spec; both are modelled. -/
inductive KeyWaitMode where
  /-- wait until any key is held and store the lowest held key in V[x]. -/
  | anyStore
  /-- wait until the key numbered V[x] is held; no register is written. -/
  | designatedVx
  deriving DecidableEq, Repr

/-- The parameters of one machine instance (R7). They are fixed at construction; the machine carries them in
`Machine.State.cfg`, which no transaction changes (log entry 1). -/
structure Config where
  /-- W, the screen's width in pixels. -/
  width : Nat
  /-- H, the screen's height in pixels. -/
  height : Nat
  /-- FONT, the 80 bytes loaded at 0x050 at boot. -/
  font : Vector Byte 80
  alu8Map : Alu8Map
  keyWaitMode : KeyWaitMode
  deriving DecidableEq, Repr

/-- R7: W and H are "each at least 1". -/
abbrev Config.wf (c : Config) : Prop := 1 ≤ c.width ∧ 1 ≤ c.height

/-- The free value of RANDOM (R193, D26): the number the process-wide generator gives for the draw with this index.
It has no body: nothing can be proved about which number it is (log entry 5). -/
opaque Config.freeDraw : Nat → Nat

end Sys2Proof
end

