-- ==== Sys2Proof/Machine/Parameters.lean ====
section
/-! DEFINITION. The parameter values `State.reset` is built with. W, H and FONT have the spec's defaults (00_scope.md R7);
ALU_8_MAP and KEY_WAIT_MODE are OPEN in the spec and chosen here (log entries 2 and 3). Every claim over all states holds
for every setting, since the setting is a field of the state. -/

namespace Sys2Proof.Machine

/-- R7, D38: "64×32 for standard CHIP-8". -/
def defaultWidth : Nat := 64

def defaultHeight : Nat := 32

/-- DESIGN CHOICE (log entry 2): the spec gives ALU_8_MAP no default. -/
def chosenAlu8Map : Alu8Map := .conventional

/-- DESIGN CHOICE (log entry 3): the spec gives KEY_WAIT_MODE no default. -/
def chosenKeyWaitMode : KeyWaitMode := .anyStore

/-- The default FONT (20_memory.md R86, D20), one glyph a line, top row first; PRESUMED by the spec itself
("from general knowledge, not in source"; log entry 8). -/
def defaultFont : Vector Byte 80 := #v[
  0xF0, 0x90, 0x90, 0x90, 0xF0,
  0x20, 0x60, 0x20, 0x20, 0x70,
  0xF0, 0x10, 0xF0, 0x80, 0xF0,
  0xF0, 0x10, 0xF0, 0x10, 0xF0,
  0x90, 0x90, 0xF0, 0x10, 0x10,
  0xF0, 0x80, 0xF0, 0x10, 0xF0,
  0xF0, 0x80, 0xF0, 0x90, 0xF0,
  0xF0, 0x10, 0x20, 0x40, 0x40,
  0xF0, 0x90, 0xF0, 0x90, 0xF0,
  0xF0, 0x90, 0xF0, 0x10, 0xF0,
  0xF0, 0x90, 0xF0, 0x90, 0x90,
  0xE0, 0x90, 0xE0, 0x90, 0xE0,
  0xF0, 0x80, 0x80, 0x80, 0xF0,
  0xE0, 0x90, 0x90, 0x90, 0xE0,
  0xF0, 0x80, 0xF0, 0x80, 0xF0,
  0xF0, 0x80, 0xF0, 0x80, 0x80]

/-- The parameters of the machine `State.reset` describes. -/
def defaultConfig : Config where
  width := defaultWidth
  height := defaultHeight
  font := defaultFont
  alu8Map := chosenAlu8Map
  keyWaitMode := chosenKeyWaitMode

end Sys2Proof.Machine
end

