-- ==== Sys2Proof/Syntax.lean ====
section
/-! DEFINITION. The instructions: one constructor for each mnemonic of spec/opcode_table.json, in decode-table order
(30_encoding.md R114; the table's two SHIFT_LEFT rows are one variant under two settings of ALU_8_MAP). Operands are
the raw fields of R111, already turned into register numbers. -/

namespace Sys2Proof

inductive Instr where
  /-- 00E0 (R262) -/
  | clear
  /-- 00EE (R141) -/
  | ret
  /-- 0nnn other than 00E0 and 00EE (R142) -/
  | syscall (nnn : Addr)
  /-- 1nnn (R143) -/
  | jump (nnn : Addr)
  /-- 2nnn (R144) -/
  | call (nnn : Addr)
  /-- 3xkk (R145) -/
  | skipEqImm (x : Reg) (kk : Byte)
  /-- 4xkk (R146) -/
  | skipNeqImm (x : Reg) (kk : Byte)
  /-- 5xyd, d ignored (R147, R123) -/
  | skipEqReg (x y : Reg)
  /-- 6xkk (R182) -/
  | loadImm (x : Reg) (kk : Byte)
  /-- 7xkk (R183) -/
  | addImm (x : Reg) (kk : Byte)
  /-- 8xy0 (R184) -/
  | move (x y : Reg)
  /-- 8xy1 (R185) -/
  | or (x y : Reg)
  /-- 8xy2 (R186) -/
  | and (x y : Reg)
  /-- 8xy3 (R187) -/
  | xor (x y : Reg)
  /-- 8xy4 (R188) -/
  | addReg (x y : Reg)
  /-- 8xy5 (R189) -/
  | subReg (x y : Reg)
  /-- 8xy6; y decoded but not read (R190) -/
  | shiftRight (x y : Reg)
  /-- 8xy7 under TABLE, 8xyE under CONVENTIONAL; y decoded but not read (R191) -/
  | shiftLeft (x y : Reg)
  /-- 8xy7, CONVENTIONAL only (R192) -/
  | subReverse (x y : Reg)
  /-- 9xyd, d ignored (R148, R123) -/
  | skipNeqReg (x y : Reg)
  /-- Annn (R230) -/
  | loadIndex (nnn : Addr)
  /-- Bnnn (R149) -/
  | jumpIndexed (nnn : Addr)
  /-- Cxkk (R193) -/
  | random (x : Reg) (kk : Byte)
  /-- Dxyn (R263) -/
  | draw (x y : Reg) (n : Nibble)
  /-- Ex9E (R291) -/
  | skipIfKey (x : Reg)
  /-- ExA1 (R292) -/
  | skipIfNotKey (x : Reg)
  /-- Fx07 (R296) -/
  | timerGet (x : Reg)
  /-- Fx0A (R293) -/
  | keyWait (x : Reg)
  /-- Fx15 (R297) -/
  | timerSetDelay (x : Reg)
  /-- Fx18 (R298) -/
  | timerSetSound (x : Reg)
  /-- Fx1E (R231) -/
  | indexAdd (x : Reg)
  /-- Fx29 (R232) -/
  | fontAddr (x : Reg)
  /-- Fx33 (R233) -/
  | bcdStore (x : Reg)
  /-- Fx55 (R234) -/
  | regDump (x : Reg)
  /-- Fx65 (R235) -/
  | regLoad (x : Reg)
  deriving DecidableEq, Repr

end Sys2Proof
end

