-- ==== Sys2Proof/WellFormed.lean ====
section
/-! DEFINITION. Which terms of `Instr` are instructions of a machine with a given ALU_8_MAP. Field widths are in the
types; two conditions remain: the operand SYSCALL excludes (30_encoding.md R115, R125) and the variant that exists under
one setting only (R118, R119, R192). -/

namespace Sys2Proof

def Instr.wellFormed (m : Alu8Map) : Instr → Bool
  | .clear => true
  | .ret => true
  | .syscall nnn => nnn ≠ 0x0E0 && nnn ≠ 0x0EE
  | .jump _ => true
  | .call _ => true
  | .skipEqImm _ _ => true
  | .skipNeqImm _ _ => true
  | .skipEqReg _ _ => true
  | .loadImm _ _ => true
  | .addImm _ _ => true
  | .move _ _ => true
  | .or _ _ => true
  | .and _ _ => true
  | .xor _ _ => true
  | .addReg _ _ => true
  | .subReg _ _ => true
  | .shiftRight _ _ => true
  | .shiftLeft _ _ => true
  | .subReverse _ _ => m = .conventional
  | .skipNeqReg _ _ => true
  | .loadIndex _ => true
  | .jumpIndexed _ => true
  | .random _ _ => true
  | .draw _ _ _ => true
  | .skipIfKey _ => true
  | .skipIfNotKey _ => true
  | .timerGet _ => true
  | .keyWait _ => true
  | .timerSetDelay _ => true
  | .timerSetSound _ => true
  | .indexAdd _ => true
  | .fontAddr _ => true
  | .bcdStore _ => true
  | .regDump _ => true
  | .regLoad _ => true

end Sys2Proof
end

