-- ==== Sys2Proof/Decode.lean ====
section
/-! DEFINITION. The decoder (30_encoding.md R110 to R124), total on all words and on any bytes, rejecting by name; then
the encoder (R112, R125), from the same field layout. -/

namespace Sys2Proof

/-! ## Fields of a word (R111) -/

def opField (w : Word) : Nibble := w.extractLsb' 12 4
def xField (w : Word) : Reg := (w.extractLsb' 8 4).toFin
def yField (w : Word) : Reg := (w.extractLsb' 4 4).toFin
def nField (w : Word) : Nibble := w.extractLsb' 0 4
def kkField (w : Word) : Byte := w.extractLsb' 0 8
def nnnField (w : Word) : Addr := w.extractLsb' 0 12

/-! ## Decode -/

/-- Why a word or a byte string is no instruction. The first three are R122's sets, by family; they make the step that
executes the word raise DecodeError (R61). -/
inductive DecodeReject where
  /-- 8xyn with a function nibble no variant has (R117 to R119) -/
  | aluFunction (n : Nibble)
  /-- Exkk with kk neither 9E nor A1 (R120) -/
  | keyFunction (kk : Byte)
  /-- Fxkk with kk none of the nine values of R121 -/
  | miscFunction (kk : Byte)
  /-- fewer than two bytes were given: no instruction is shorter (R110) -/
  | tooShort
  deriving DecidableEq, Repr

/-- The 8 family (R117 to R119). -/
def decodeAlu (m : Alu8Map) (x y : Reg) (n : Nibble) : Except DecodeReject Instr :=
  match n.toNat with
  | 0x0 => .ok (.move x y)
  | 0x1 => .ok (.or x y)
  | 0x2 => .ok (.and x y)
  | 0x3 => .ok (.xor x y)
  | 0x4 => .ok (.addReg x y)
  | 0x5 => .ok (.subReg x y)
  | 0x6 => .ok (.shiftRight x y)
  | 0x7 =>
    match m with
    | .table => .ok (.shiftLeft x y)
    | .conventional => .ok (.subReverse x y)
  | 0xE =>
    match m with
    | .table => .error (.aluFunction n)
    | .conventional => .ok (.shiftLeft x y)
  | _ => .error (.aluFunction n)

/-- The E family (R120). -/
def decodeKey (x : Reg) (kk : Byte) : Except DecodeReject Instr :=
  if kk = 0x9E then .ok (.skipIfKey x)
  else if kk = 0xA1 then .ok (.skipIfNotKey x)
  else .error (.keyFunction kk)

/-- The F family (R121). -/
def decodeMisc (x : Reg) (kk : Byte) : Except DecodeReject Instr :=
  if kk = 0x07 then .ok (.timerGet x)
  else if kk = 0x0A then .ok (.keyWait x)
  else if kk = 0x15 then .ok (.timerSetDelay x)
  else if kk = 0x18 then .ok (.timerSetSound x)
  else if kk = 0x1E then .ok (.indexAdd x)
  else if kk = 0x29 then .ok (.fontAddr x)
  else if kk = 0x33 then .ok (.bcdStore x)
  else if kk = 0x55 then .ok (.regDump x)
  else if kk = 0x65 then .ok (.regLoad x)
  else .error (.miscFunction kk)

/-- `Decode(w)` of R114, on every word. High nibble 0 has no failure (R115): 00Cn and 00FB to 00FF are SYSCALL, against a
clause of R5 (log entry 19). The last arm is high nibble F: the nibble has 16 values. -/
def decode (m : Alu8Map) (w : Word) : Except DecodeReject Instr :=
  match (opField w).toNat with
  | 0x0 =>
    if nnnField w = 0x0E0 then .ok .clear
    else if nnnField w = 0x0EE then .ok .ret
    else .ok (.syscall (nnnField w))
  | 0x1 => .ok (.jump (nnnField w))
  | 0x2 => .ok (.call (nnnField w))
  | 0x3 => .ok (.skipEqImm (xField w) (kkField w))
  | 0x4 => .ok (.skipNeqImm (xField w) (kkField w))
  | 0x5 => .ok (.skipEqReg (xField w) (yField w))
  | 0x6 => .ok (.loadImm (xField w) (kkField w))
  | 0x7 => .ok (.addImm (xField w) (kkField w))
  | 0x8 => decodeAlu m (xField w) (yField w) (nField w)
  | 0x9 => .ok (.skipNeqReg (xField w) (yField w))
  | 0xA => .ok (.loadIndex (nnnField w))
  | 0xB => .ok (.jumpIndexed (nnnField w))
  | 0xC => .ok (.random (xField w) (kkField w))
  | 0xD => .ok (.draw (xField w) (yField w) (nField w))
  | 0xE => decodeKey (xField w) (kkField w)
  | _ => decodeMisc (xField w) (kkField w)

/-! ## Bytes (20_memory.md R84: the byte at the lower address is the high-order byte) -/

def wordOfBytes (hi lo : Byte) : Word := hi ++ lo
def highByte (w : Word) : Byte := w.extractLsb' 8 8
def lowByte (w : Word) : Byte := w.extractLsb' 0 8

/-- One instruction from the front of a byte string, with the bytes after it. -/
def decodeBytes (m : Alu8Map) : List Byte → Except DecodeReject (Instr × List Byte)
  | hi :: lo :: rest =>
    match decode m (wordOfBytes hi lo) with
    | .ok i => .ok (i, rest)
    | .error r => .error r
  | _ => .error .tooShort

/-- The host's question: which instruction the decoder of the machine of `State.reset` reads from the word `w`, its bits
numbered as spec/opcode_table.json numbers them. The bytes are laid out as memory holds them, then decoded. -/
def decodeTableWord (nbits w : Nat) : Option Instr :=
  let word : Word := BitVec.ofNat 16 (w % 2 ^ nbits)
  match decodeBytes Machine.defaultConfig.alu8Map [highByte word, lowByte word] with
  | .ok (i, _) => some i
  | .error _ => none

/-! ## Encode (R112, R125) -/

def packNNN (op : Nibble) (nnn : Addr) : Word := op ++ nnn
def packXKK (op : Nibble) (x : Reg) (kk : Byte) : Word := op ++ (BitVec.ofFin x : Nibble) ++ kk
def packXYN (op : Nibble) (x y : Reg) (n : Nibble) : Word :=
  op ++ (BitVec.ofFin x : Nibble) ++ (BitVec.ofFin y : Nibble) ++ n

/-- The function nibble of SHIFT_LEFT under each ALU_8_MAP (R118, R119). -/
def shiftLeftNibble : Alu8Map → Nibble
  | .table => 0x7
  | .conventional => 0xE

/-- The word of an instruction (R125). The ignored nibble of 5xyd and 9xyd is written 0. -/
def encode (m : Alu8Map) : Instr → Word
  | .clear => 0x00E0
  | .ret => 0x00EE
  | .syscall nnn => packNNN 0x0 nnn
  | .jump nnn => packNNN 0x1 nnn
  | .call nnn => packNNN 0x2 nnn
  | .skipEqImm x kk => packXKK 0x3 x kk
  | .skipNeqImm x kk => packXKK 0x4 x kk
  | .skipEqReg x y => packXYN 0x5 x y 0x0
  | .loadImm x kk => packXKK 0x6 x kk
  | .addImm x kk => packXKK 0x7 x kk
  | .move x y => packXYN 0x8 x y 0x0
  | .or x y => packXYN 0x8 x y 0x1
  | .and x y => packXYN 0x8 x y 0x2
  | .xor x y => packXYN 0x8 x y 0x3
  | .addReg x y => packXYN 0x8 x y 0x4
  | .subReg x y => packXYN 0x8 x y 0x5
  | .shiftRight x y => packXYN 0x8 x y 0x6
  | .shiftLeft x y => packXYN 0x8 x y (shiftLeftNibble m)
  | .subReverse x y => packXYN 0x8 x y 0x7
  | .skipNeqReg x y => packXYN 0x9 x y 0x0
  | .loadIndex nnn => packNNN 0xA nnn
  | .jumpIndexed nnn => packNNN 0xB nnn
  | .random x kk => packXKK 0xC x kk
  | .draw x y n => packXYN 0xD x y n
  | .skipIfKey x => packXKK 0xE x 0x9E
  | .skipIfNotKey x => packXKK 0xE x 0xA1
  | .timerGet x => packXKK 0xF x 0x07
  | .keyWait x => packXKK 0xF x 0x0A
  | .timerSetDelay x => packXKK 0xF x 0x15
  | .timerSetSound x => packXKK 0xF x 0x18
  | .indexAdd x => packXKK 0xF x 0x1E
  | .fontAddr x => packXKK 0xF x 0x29
  | .bcdStore x => packXKK 0xF x 0x33
  | .regDump x => packXKK 0xF x 0x55
  | .regLoad x => packXKK 0xF x 0x65

end Sys2Proof
end

