-- ==== Sys2Proof/Machine/State.lean ====
section
/-! DEFINITION. The state (10_state.md R30 to R47), as plain data, and the machine after reset (R46). -/

namespace Sys2Proof.Machine

/-- MEM (R38, R80) as the list of its bytes that are not zero, by rising address: "zero-initialized", so an unlisted
address reads as 0x00 (`Memory.unlisted`). The canonical form is `Memory.wf`; the operations are in Ops.lean. -/
structure Memory where
  cells : List Host.Cell
  deriving DecidableEq, Repr

/-- What an address the list does not name reads as: R46, `MEM[0x000..0xFFF]` is 0x00 at reset. -/
def Memory.unlisted : Byte := 0x00

/-- R6, R80: 4096 bytes, addresses 0x000 to 0xFFF. -/
def Memory.size : Nat := 4096

/-- The canonical form: addresses strictly rising, each of them in the address space, no entry that reads as unlisted. -/
abbrev Memory.wf (m : Memory) : Prop :=
  m.cells.Pairwise (fun a b => a.1 < b.1) ∧ ∀ c ∈ m.cells, c.1 < Memory.size ∧ c.2 ≠ Memory.unlisted

/-- Column `px`, row `py` of the screen (R39). -/
structure Pixel where
  px : Nat
  py : Nat
  deriving DecidableEq, Repr

/-- Row-major order: top row first, left to right. -/
abbrev Pixel.Before (p q : Pixel) : Prop := p.py < q.py ∨ (p.py = q.py ∧ p.px < q.px)

/-- SCREEN (R39) as the list of the pixels that are on, in row-major order without repeats (log entry 10). -/
structure Screen where
  lit : List Pixel
  deriving DecidableEq, Repr

/-- The canonical form for a screen of the configured size: strictly rising, every pixel inside W×H. -/
abbrev Screen.wf (c : Config) (sc : Screen) : Prop :=
  sc.lit.Pairwise Pixel.Before ∧ ∀ p ∈ sc.lit, p.px < c.width ∧ p.py < c.height

/-- RUN (R41). -/
inductive RunState where
  /-- the normal state: a step executes an instruction -/
  | running
  /-- entered by KEY_WAIT: a step polls the keys (R294) -/
  | awaitingKey
  /-- after a fatal error; absorbing (R405) -/
  | faulted
  /-- after a host quit; terminal (R65) -/
  | stopped
  deriving DecidableEq, Repr

/-- The kinds of fatal error (60_exceptions.md R400). -/
inductive FaultKind where
  /-- code 1: raised by the fetch stage of a step -/
  | decodeError
  /-- code 2: raised by the fetch stage, DRAW, BCD_STORE, REG_DUMP, REG_LOAD -/
  | memoryBoundsError
  /-- code 3: raised by CALL -/
  | stackOverflow
  /-- code 4: raised by RETURN -/
  | stackUnderflow
  /-- code 5: recorded by the boot-time `load` (R455) -/
  | loadError
  /-- code 6: raised by the fetch stage -/
  | pcMisaligned
  /-- code 7: raised by SKIP_IF_KEY, SKIP_IF_NOT_KEY, and KEY_WAIT in DESIGNATED_VX mode -/
  | keyRangeError
  deriving DecidableEq, Repr

/-- FAULT's record (R44, R401): which fields are present depends on the kind. -/
structure FaultRecord where
  kind : FaultKind
  pc : Option Word
  word : Option Word
  addr : Option Word
  value : Option Nat
  deriving DecidableEq, Repr

/-- The output `syscall_event(pc, nnn)` of SYSCALL (40_control_flow.md R142, D27). -/
structure SyscallEvent where
  pc : Word
  nnn : Addr
  deriving DecidableEq, Repr

/-- The machine. -/
structure State where
  /-- the parameters of R7, constant (log entry 1) -/
  cfg : Config
  /-- V0 to VF (R30) -/
  v : Vector Byte 16
  /-- I (R34): at most 0xFFF in every reachable state -/
  index : Word
  /-- PC (R32) -/
  pc : Word
  /-- SP (R36): how many slots are occupied, 0 to 16 -/
  sp : Fin 17
  /-- STACK (R35) -/
  stack : Vector Word 16
  /-- DT (R37) -/
  dt : Byte
  /-- ST (R37) -/
  st : Byte
  /-- MEM (R38) -/
  mem : Memory
  /-- SCREEN (R39) -/
  screen : Screen
  /-- KEYS (R40): bit k set when key k is held -/
  keys : Word
  /-- RUN (R41) -/
  run : RunState
  /-- WAIT_X (R42) -/
  waitX : Reg
  /-- REDRAW (R43) -/
  redraw : Bool
  /-- FAULT (R44) -/
  fault : Option FaultRecord
  /-- the model's own: how many RANDOM draws have been taken (log entry 5) -/
  draws : Nat
  /-- the model's own: the syscall events emitted so far, oldest first (log entry 6) -/
  events : List SyscallEvent
  deriving DecidableEq, Repr

/-- No step of this machine ends in an outcome fault: every fatal error of the spec is a NEXT state, with FAULT recorded
and RUN = FAULTED (60_exceptions.md R402; log entry 7). So the type has no constructor (safe: nothing is hidden in it). -/
inductive Fault where
  deriving DecidableEq, Repr

/-- Why the model gives an instruction no meaning. -/
inductive Refusal where
  /-- raised by `exec` for an instruction without a meaning; safe. No arm of this model raises it. -/
  | notModelled (mnemonic : String)
  deriving DecidableEq, Repr

/-- R46, R450: a fresh machine with the given parameters, before the boot loads of R453. -/
def State.fresh (cfg : Config) : State where
  cfg := cfg
  v := Vector.replicate 16 0x00
  index := 0x000
  pc := 0x200
  sp := 0
  stack := Vector.replicate 16 0x0000
  dt := 0x00
  st := 0x00
  mem := ⟨[]⟩
  screen := ⟨[]⟩
  keys := 0x0000
  run := .running
  waitX := 0
  redraw := false
  fault := none
  draws := 0
  events := []

/-- The machine right after reset (R46, R450), with the parameters of Parameters.lean. -/
def State.reset : State := State.fresh defaultConfig

end Sys2Proof.Machine
end

