-- ==== Sys2Proof/Machine/Ops.lean ====
section
/-! DEFINITION. The named operations over memory, screen, stack, program counter and run state, and the one operation that
takes a fatal error. -/

namespace Sys2Proof.Machine

/-! ## Memory (20_memory.md R80 to R83) -/

/-- The byte the first entry for address `a` holds. -/
def readCells (a : Nat) : List Host.Cell → Byte
  | [] => Memory.unlisted
  | c :: cs => if c.1 = a then c.2 else readCells a cs

/-- Put a new entry at its place by rising address. -/
def insertCell (a : Nat) (b : Byte) : List Host.Cell → List Host.Cell
  | [] => [(a, b)]
  | c :: cs => if a < c.1 then (a, b) :: c :: cs else c :: insertCell a b cs

/-- `MEM[a]` for an address in the address space (R81: "direct indexed access"; no side effect, R89). -/
def Memory.read (m : Memory) (a : Nat) : Byte := readCells a m.cells

/-- `MEM[a] <- b`, keeping the canonical form: a byte that reads as unlisted is not listed. -/
def Memory.write (m : Memory) (a : Nat) (b : Byte) : Memory :=
  let others := m.cells.filter (fun c => c.1 ≠ a)
  ⟨if b = Memory.unlisted then others else insertCell a b others⟩

/-- The bytes of a list at consecutive addresses from `a` (R236: effective address I + k, no wrap). -/
def Memory.writeBytes (m : Memory) (a : Nat) : List Byte → Memory
  | [] => m
  | b :: bs => (m.write a b).writeBytes (a + 1) bs

/-- R82: the address exists. -/
def inMemory (a : Nat) : Bool := a ≤ 0xFFF

/-- `MemRead(a, 1)` of R82: none is the MemoryBoundsError. -/
def Memory.get (m : Memory) (a : Nat) : Option Byte := if inMemory a then some (m.read a) else none

/-- `MemWrite(a, 1, b)` of R82: none is the MemoryBoundsError. -/
def Memory.set (m : Memory) (a : Nat) (b : Byte) : Option Memory := if inMemory a then some (m.write a b) else none

/-- R83: an instruction that touches `n` bytes from `base` checks all of them first; the last one decides. -/
def rangeInMemory (base n : Nat) : Bool := n = 0 || inMemory (base + n - 1)

/-- R83, C13: the address a multi-byte bounds error reports. -/
def firstUnmapped : Word := 0x1000

/-! ## Screen (43_display.md R260) -/

/-- `get_pixel`: "a pure read". -/
def Screen.getPixel (sc : Screen) (p : Pixel) : Bool := decide (p ∈ sc.lit)

/-- Put a pixel at its place in row-major order. -/
def insertPixel (p : Pixel) : List Pixel → List Pixel
  | [] => [p]
  | q :: qs => if p.Before q then p :: q :: qs else q :: insertPixel p qs

/-- The screen after `xor(px, py)`: the pixel toggled. -/
def Screen.toggle (sc : Screen) (p : Pixel) : Screen :=
  ⟨if sc.getPixel p then sc.lit.filter (fun q => q ≠ p) else insertPixel p sc.lit⟩

/-- `xor(px, py)`: toggles the pixel and returns its previous value. -/
def Screen.xor (sc : Screen) (p : Pixel) : Screen × Bool := (sc.toggle p, sc.getPixel p)

/-- `clear()`: every pixel off. -/
def Screen.blank : Screen := ⟨[]⟩

/-! ## Program counter (10_state.md R61, 40_control_flow.md R140) -/

/-- PC written. -/
def State.setPc (s : State) (a : Word) : State := { s with pc := a }

/-- "advance PC by 2". -/
def State.advance (s : State) : State := s.setPc (s.pc + 2)

/-- A skip whose condition holds adds a further 2 (D28). -/
def State.skipIf (s : State) (c : Bool) : State := if c then s.advance else s

/-! ## Stack (R35, R36) -/

/-- "CALL pushes then increments": none when SP = 16. -/
def State.push (s : State) (a : Word) : Option State :=
  if h : s.sp.val < 16 then
    some { s with stack := s.stack.set s.sp.val a h, sp := ⟨s.sp.val + 1, by omega⟩ }
  else none

/-- "RET decrements then pops": the popped address and the state without it; none when SP = 0. The slot keeps its value
(D33). -/
def State.pop (s : State) : Option (Word × State) :=
  match s.sp with
  | ⟨0, _⟩ => none
  | ⟨k + 1, h⟩ => some (s.stack[k]'(by omega), { s with sp := ⟨k, by omega⟩ })

/-! ## Whole-component writes -/

def State.setMem (s : State) (m : Memory) : State := { s with mem := m }

/-- A changed screen is a redraw pending (R43, D18). -/
def State.show (s : State) (sc : Screen) : State := { s with screen := sc, redraw := true }

def State.setDelay (s : State) (b : Byte) : State := { s with dt := b }

def State.setSound (s : State) (b : Byte) : State := { s with st := b }

/-- `emit syscall_event` (R142): appended to the model's output trace. -/
def State.emit (s : State) (e : SyscallEvent) : State := { s with events := s.events ++ [e] }

/-- R193, D26: one byte in 0..kk, any of them: the free value reduced to the interval; and the state after the draw. -/
def State.drawRandom (s : State) (kk : Byte) : Byte × State :=
  (BitVec.ofNat 8 (Config.freeDraw s.draws % (kk.toNat + 1)), { s with draws := s.draws + 1 })

/-! ## The key wait (44_keys_timers.md R293, R294) -/

/-- `WAIT_X <- x; RUN <- AWAITING_KEY`. -/
def State.awaitKey (s : State) (x : Reg) : State := { s with waitX := x, run := .awaitingKey }

/-- `RUN <- RUNNING`. -/
def State.resume (s : State) : State := { s with run := .running }

/-! ## Taking a fatal error (60_exceptions.md R400 to R402)

There is no trap entry: no vector, no saved register, no mode change (R404), and no return from a fault (R405). -/

/-- The label of each kind (R400, D30). -/
def FaultKind.code : FaultKind → Nat
  | .decodeError => 1
  | .memoryBoundsError => 2
  | .stackOverflow => 3
  | .stackUnderflow => 4
  | .loadError => 5
  | .pcMisaligned => 6
  | .keyRangeError => 7

/-- `raise E(info)`, applied to the state BEFORE the step: everything the step did is discarded, then FAULT and RUN are
written. -/
def State.raise (s : State) (r : FaultRecord) : State := { s with fault := some r, run := .faulted }

/-- The record of an execution-stage fault of the instruction at `pc` with the given word (R401). -/
def FaultRecord.atExecution (kind : FaultKind) (pc word : Word) : FaultRecord where
  kind := kind
  pc := some pc
  word := some word
  addr := none
  value := none

/-- A MemoryBoundsError of DRAW, BCD_STORE, REG_DUMP or REG_LOAD (R83, R400). -/
def FaultRecord.boundsAtExecution (pc word : Word) : FaultRecord :=
  { FaultRecord.atExecution .memoryBoundsError pc word with addr := some firstUnmapped }

/-- A KeyRangeError for the register value `v` (R290, R400). -/
def FaultRecord.keyRange (pc word : Word) (v : Byte) : FaultRecord :=
  { FaultRecord.atExecution .keyRangeError pc word with value := some v.toNat }

/-- An odd PC at fetch (R61, D2): before the word is read. -/
def FaultRecord.misaligned (pc : Word) : FaultRecord where
  kind := .pcMisaligned
  pc := some pc
  word := none
  addr := none
  value := none

/-- A fetch with PC at or above 0x1000 (R61): the reported address is the PC. -/
def FaultRecord.boundsAtFetch (pc : Word) : FaultRecord where
  kind := .memoryBoundsError
  pc := some pc
  word := none
  addr := some pc
  value := none

/-- A word that is no instruction (R61, R122). -/
def FaultRecord.decodeFailure (pc word : Word) : FaultRecord :=
  FaultRecord.atExecution .decodeError pc word

/-- A boot-time load that does not fit (R455). -/
def FaultRecord.load (offset : Word) (len : Nat) : FaultRecord where
  kind := .loadError
  pc := none
  word := none
  addr := some offset
  value := some len

end Sys2Proof.Machine
end

