-- ==== Sys2Proof/Machine/Operands.lean ====
section
/-! DEFINITION. The operand forms (30_encoding.md R113; 42_index_memory.md R236): registers, immediates and addresses
zero-extended, index-relative effective addresses, key numbers. -/

namespace Sys2Proof.Machine

/-- `V[x]` (R30). -/
def State.getV (s : State) (x : Reg) : Byte := s.v[x]

/-- `V[x] <- b` (R30). -/
def State.setV (s : State) (x : Reg) (b : Byte) : State := { s with v := s.v.set x b }

/-- VF, register 15 (R31). -/
def flagReg : Reg := 15

/-- `I <- a`: "masked to 12 bits on modification" (00_scope.md R12). -/
def State.setIndex (s : State) (a : Word) : State := { s with index := a &&& 0xFFF }

/-- `zext_16(nnn)` (R113). -/
def addrOperand (nnn : Addr) : Word := nnn.setWidth 16

/-- `zext_16(V[x])`. -/
def wordOperand (b : Byte) : Word := b.setWidth 16

/-- The effective address I + k, an unbounded natural (R82, R236). -/
def State.ea (s : State) (k : Nat) : Nat := s.index.toNat + k

/-- V0 to Vx, in order (R234). -/
def State.regsUpTo (s : State) (x : Reg) : List Byte := s.v.toList.take (x.val + 1)

/-- `for i in 0 .. x: V[i] <- MemRead(I + i, 1)` (R235). -/
def State.loadRegs (s : State) (x : Reg) : State :=
  { s with v := Vector.ofFn fun j : Fin 16 => if j ≤ x then s.mem.read (s.ea j.val) else s.v[j] }

/-- FONT_BASE (R6). -/
def fontBase : Word := 0x050

/-- Glyph g at `FONT_BASE + 5·g`, g the low nibble (R232, D20). -/
def glyphAddr (b : Byte) : Word := fontBase + 5 * (b &&& 0xF).setWidth 16

/-- Hundreds, tens and ones of a byte (R233). -/
def bcdDigits (b : Byte) : List Byte :=
  [BitVec.ofNat 8 (b.toNat / 100), BitVec.ofNat 8 (b.toNat / 10 % 10), BitVec.ofNat 8 (b.toNat % 10)]

/-- `KeyIndex(v)` (R290): none is the KeyRangeError. -/
def keyIndex (b : Byte) : Option Key := if h : b.toNat < 16 then some ⟨b.toNat, h⟩ else none

/-- `KEYS[k]` (R40). -/
def State.keyHeld (s : State) (k : Key) : Bool := s.keys.getLsbD k.val

/-- "lowest k with KEYS[k]" (R293); none when no key is held. -/
def State.lowestKey (s : State) : Option Key := (List.finRange 16).find? fun k => s.keyHeld k

/-- A key number as a register value. -/
def keyByte (k : Key) : Byte := BitVec.ofNat 8 k.val

end Sys2Proof.Machine
end

