-- ==== Sys2Proof/Machine/Flags.lean ====
section
/-! DEFINITION. Every flag computation (41_alu.md R180, R188 to R192; 43_display.md R263): VF is the only flag. -/

namespace Sys2Proof.Machine

/-- A flag as the value of VF: 1 or 0. -/
def flagByte (c : Bool) : Byte := if c then 1 else 0

/-- ADD_REG: "1 if the unsigned sum exceeds 255" (R188). -/
def carryOut (a b : Byte) : Bool := a.toNat + b.toNat > 255

/-- a - b takes no borrow: a ≥ b (R189, R192, R194). -/
def noBorrow (a b : Byte) : Bool := b.toNat ≤ a.toNat

/-- The bit SHIFT_RIGHT shifts out (R190). -/
def shiftedOutRight (a : Byte) : Bool := a.getLsbD 0

/-- The bit SHIFT_LEFT shifts out (R191). -/
def shiftedOutLeft (a : Byte) : Bool := a.getLsbD 7

/-- VF written. -/
def State.setFlag (s : State) (c : Bool) : State := s.setV flagReg (flagByte c)

/-- R181: "first writes its result to VF and then writes the flag to VF", so for x = F the flag stays (D11). -/
def State.setVFlag (s : State) (x : Reg) (b : Byte) (c : Bool) : State := (s.setV x b).setFlag c

end Sys2Proof.Machine
end

