-- ==== Sys2Proof/Machine/Alu.lean ====
section
/-! DEFINITION. Register loads and ALU (41_alu.md R180 to R194). A meaning runs from the state before the step, PC still
at the instruction, and advances PC itself (log entry 12). Operands are read before any write (R181, D12). -/

namespace Sys2Proof.Machine

/-- R182 -/
def execLoadImm (x : Reg) (kk : Byte) (s : State) : Host.Outcome State Fault Refusal :=
  .next (s.advance.setV x kk)

/-- R183: no flag (D13). -/
def execAddImm (x : Reg) (kk : Byte) (s : State) : Host.Outcome State Fault Refusal :=
  .next (s.advance.setV x (s.getV x + kk))

/-- R184 -/
def execMove (x y : Reg) (s : State) : Host.Outcome State Fault Refusal :=
  .next (s.advance.setV x (s.getV y))

/-- R185: no flag (D13). -/
def execOr (x y : Reg) (s : State) : Host.Outcome State Fault Refusal :=
  .next (s.advance.setV x (s.getV x ||| s.getV y))

/-- R186: no flag (D13). -/
def execAnd (x y : Reg) (s : State) : Host.Outcome State Fault Refusal :=
  .next (s.advance.setV x (s.getV x &&& s.getV y))

/-- R187: no flag (D13). -/
def execXor (x y : Reg) (s : State) : Host.Outcome State Fault Refusal :=
  .next (s.advance.setV x (s.getV x ^^^ s.getV y))

/-- R188 -/
def execAddReg (x y : Reg) (s : State) : Host.Outcome State Fault Refusal :=
  let a := s.getV x
  let b := s.getV y
  .next (s.advance.setVFlag x (a + b) (carryOut a b))

/-- R189 -/
def execSubReg (x y : Reg) (s : State) : Host.Outcome State Fault Refusal :=
  let a := s.getV x
  let b := s.getV y
  .next (s.advance.setVFlag x (a - b) (noBorrow a b))

/-- R190: y is decoded and not read (D34). -/
def execShiftRight (x _y : Reg) (s : State) : Host.Outcome State Fault Refusal :=
  let a := s.getV x
  .next (s.advance.setVFlag x (a >>> 1) (shiftedOutRight a))

/-- R191: y is decoded and not read (D34). -/
def execShiftLeft (x _y : Reg) (s : State) : Host.Outcome State Fault Refusal :=
  let a := s.getV x
  .next (s.advance.setVFlag x (a <<< 1) (shiftedOutLeft a))

/-- R192: V[y] - V[x], flag NOT borrow. -/
def execSubReverse (x y : Reg) (s : State) : Host.Outcome State Fault Refusal :=
  let a := s.getV x
  let b := s.getV y
  .next (s.advance.setVFlag x (b - a) (noBorrow b a))

/-- R193: any byte in 0..kk, a free value (log entry 5). -/
def execRandom (x : Reg) (kk : Byte) (s : State) : Host.Outcome State Fault Refusal :=
  let drawn := s.drawRandom kk
  .next (drawn.2.advance.setV x drawn.1)

end Sys2Proof.Machine
end

