-- ==== Sys2Proof/Machine/ControlFlow.lean ====
section
/-! DEFINITION. Control flow (40_control_flow.md R140 to R157). Targets are not checked here: the next fetch checks them
(R150). -/

namespace Sys2Proof.Machine

/-- R141 -/
def execReturn (s : State) : Host.Outcome State Fault Refusal :=
  match s.pop with
  | some (a, s') => .next (s'.setPc a)
  | none => .next (s.raise (.atExecution .stackUnderflow s.pc (encode s.cfg.alu8Map .ret)))

/-- R142: "no-op; logged only, never fails". -/
def execSyscall (nnn : Addr) (s : State) : Host.Outcome State Fault Refusal :=
  .next (s.advance.emit ⟨s.pc, nnn⟩)

/-- R143 -/
def execJump (nnn : Addr) (s : State) : Host.Outcome State Fault Refusal :=
  .next (s.setPc (addrOperand nnn))

/-- R144: the pushed address is pc0 + 2. -/
def execCall (nnn : Addr) (s : State) : Host.Outcome State Fault Refusal :=
  match s.push (s.pc + 2) with
  | some s' => .next (s'.setPc (addrOperand nnn))
  | none => .next (s.raise (.atExecution .stackOverflow s.pc (encode s.cfg.alu8Map (.call nnn))))

/-- R145 -/
def execSkipEqImm (x : Reg) (kk : Byte) (s : State) : Host.Outcome State Fault Refusal :=
  .next (s.advance.skipIf (s.getV x == kk))

/-- R146 -/
def execSkipNeqImm (x : Reg) (kk : Byte) (s : State) : Host.Outcome State Fault Refusal :=
  .next (s.advance.skipIf (s.getV x != kk))

/-- R147 -/
def execSkipEqReg (x y : Reg) (s : State) : Host.Outcome State Fault Refusal :=
  .next (s.advance.skipIf (s.getV x == s.getV y))

/-- R148 -/
def execSkipNeqReg (x y : Reg) (s : State) : Host.Outcome State Fault Refusal :=
  .next (s.advance.skipIf (s.getV x != s.getV y))

/-- R149: nnn + V0, not masked (D15). -/
def execJumpIndexed (nnn : Addr) (s : State) : Host.Outcome State Fault Refusal :=
  .next (s.setPc (addrOperand nnn + wordOperand (s.getV 0)))

end Sys2Proof.Machine
end

