-- ==== Sys2Proof/Machine/Display.lean ====
section
/-! DEFINITION. Display and collision detection (43_display.md R260 to R265). -/

namespace Sys2Proof.Machine

/-- The pixel of sprite column `c`, row `r` for the origin (ox, oy): "per-axis wrap" (R263, D16). -/
def spritePixel (cfg : Config) (ox oy : Byte) (r c : Nat) : Pixel :=
  ⟨(ox.toNat + c) % cfg.width, (oy.toNat + r) % cfg.height⟩

/-- One column of a sprite row: a set bit toggles its pixel and records a collision; a clear bit plots nothing. Bit 7 - c
is column c: "most-significant bit first". -/
def plotBit (cfg : Config) (ox oy : Byte) (r : Nat) (row : Byte) (acc : Screen × Bool) (c : Nat) : Screen × Bool :=
  if row.getLsbD (7 - c) then
    let plotted := acc.1.xor (spritePixel cfg ox oy r c)
    (plotted.1, acc.2 || plotted.2)
  else acc

/-- One sprite row, columns 0 to 7. -/
def plotRow (cfg : Config) (ox oy : Byte) (rows : Nat → Byte) (acc : Screen × Bool) (r : Nat) : Screen × Bool :=
  (List.range 8).foldl (plotBit cfg ox oy r (rows r)) acc

/-- Rows 0 to n-1, top to bottom: the screen after, and whether any plotted pixel collided. -/
def plotSprite (cfg : Config) (ox oy : Byte) (rows : Nat → Byte) (n : Nat) (sc : Screen) : Screen × Bool :=
  (List.range n).foldl (plotRow cfg ox oy rows) (sc, false)

/-- R262: REDRAW is set even when the screen was blank (D18). -/
def execClear (s : State) : Host.Outcome State Fault Refusal :=
  .next (s.advance.show Screen.blank)

/-- R263: the origin is read before VF is written; height 0 plots nothing, clears VF and sets REDRAW (D17). -/
def execDraw (x y : Reg) (n : Nibble) (s : State) : Host.Outcome State Fault Refusal :=
  if rangeInMemory (s.ea 0) n.toNat then
    let drawn := plotSprite s.cfg (s.getV x) (s.getV y) (fun r => s.mem.read (s.ea r)) n.toNat s.screen
    .next ((s.advance.show drawn.1).setFlag drawn.2)
  else .next (s.raise (.boundsAtExecution s.pc (encode s.cfg.alu8Map (.draw x y n))))

end Sys2Proof.Machine
end

