-- ==== Sys2Proof/Machine/IndexMemory.lean ====
section
/-! DEFINITION. Index register and memory instructions (42_index_memory.md R230 to R236). Bounds are checked before any
write (20_memory.md R83); I is unchanged by an access (D14). -/

namespace Sys2Proof.Machine

/-- R230 -/
def execLoadIndex (nnn : Addr) (s : State) : Host.Outcome State Fault Refusal :=
  .next (s.advance.setIndex (addrOperand nnn))

/-- R231: no flag (D13); the mask is in the write of I. -/
def execIndexAdd (x : Reg) (s : State) : Host.Outcome State Fault Refusal :=
  .next (s.advance.setIndex (s.index + wordOperand (s.getV x)))

/-- R232 -/
def execFontAddr (x : Reg) (s : State) : Host.Outcome State Fault Refusal :=
  .next (s.advance.setIndex (glyphAddr (s.getV x)))

/-- R233 -/
def execBcdStore (x : Reg) (s : State) : Host.Outcome State Fault Refusal :=
  if rangeInMemory (s.ea 0) 3 then
    .next (s.advance.setMem (s.mem.writeBytes (s.ea 0) (bcdDigits (s.getV x))))
  else .next (s.raise (.boundsAtExecution s.pc (encode s.cfg.alu8Map (.bcdStore x))))

/-- R234 -/
def execRegDump (x : Reg) (s : State) : Host.Outcome State Fault Refusal :=
  if rangeInMemory (s.ea 0) (x.val + 1) then
    .next (s.advance.setMem (s.mem.writeBytes (s.ea 0) (s.regsUpTo x)))
  else .next (s.raise (.boundsAtExecution s.pc (encode s.cfg.alu8Map (.regDump x))))

/-- R235 -/
def execRegLoad (x : Reg) (s : State) : Host.Outcome State Fault Refusal :=
  if rangeInMemory (s.ea 0) (x.val + 1) then .next (s.advance.loadRegs x)
  else .next (s.raise (.boundsAtExecution s.pc (encode s.cfg.alu8Map (.regLoad x))))

end Sys2Proof.Machine
end

