-- ==== Sys2Proof/Machine/KeysTimers.lean ====
section
/-! DEFINITION. Keys, key wait and timer instructions (44_keys_timers.md R290 to R298). The tick is a host transaction
(Transactions.lean); no instruction decrements a timer (R301). -/

namespace Sys2Proof.Machine

/-- The shared form of the two key skips: the key number is V[x] (D32), fatal above 0xF (R290, D10). -/
def keySkip (i : Instr) (x : Reg) (cond : Bool → Bool) (s : State) : Host.Outcome State Fault Refusal :=
  match keyIndex (s.getV x) with
  | some k => .next (s.advance.skipIf (cond (s.keyHeld k)))
  | none => .next (s.raise (.keyRange s.pc (encode s.cfg.alu8Map i) (s.getV x)))

/-- R291 -/
def execSkipIfKey (x : Reg) (s : State) : Host.Outcome State Fault Refusal :=
  keySkip (.skipIfKey x) x (fun held => held) s

/-- R292 -/
def execSkipIfNotKey (x : Reg) (s : State) : Host.Outcome State Fault Refusal :=
  keySkip (.skipIfNotKey x) x (fun held => !held) s

/-- R293, in either KEY_WAIT_MODE: the condition is a level, tested at once (D9). -/
def execKeyWait (x : Reg) (s : State) : Host.Outcome State Fault Refusal :=
  match s.cfg.keyWaitMode with
  | .anyStore =>
    match s.lowestKey with
    | some k => .next (s.advance.setV x (keyByte k))
    | none => .next (s.advance.awaitKey x)
  | .designatedVx =>
    match keyIndex (s.getV x) with
    | some k => .next (if s.keyHeld k then s.advance else s.advance.awaitKey x)
    | none => .next (s.raise (.keyRange s.pc (encode s.cfg.alu8Map (.keyWait x)) (s.getV x)))

/-- `KeyWaitPoll()` (R294): the whole of a step taken in AWAITING_KEY. It fetches nothing, never raises, and the step that
completes the wait does nothing else. -/
def keyWaitPoll (s : State) : State :=
  match s.cfg.keyWaitMode with
  | .anyStore =>
    match s.lowestKey with
    | some k => (s.setV s.waitX (keyByte k)).resume
    | none => s
  | .designatedVx =>
    match keyIndex (s.getV s.waitX) with
    | some k => if s.keyHeld k then s.resume else s
    | none => s

/-- R296: the delay timer (D21). -/
def execTimerGet (x : Reg) (s : State) : Host.Outcome State Fault Refusal :=
  .next (s.advance.setV x s.dt)

/-- R297 -/
def execTimerSetDelay (x : Reg) (s : State) : Host.Outcome State Fault Refusal :=
  .next (s.advance.setDelay (s.getV x))

/-- R298 -/
def execTimerSetSound (x : Reg) (s : State) : Host.Outcome State Fault Refusal :=
  .next (s.advance.setSound (s.getV x))

end Sys2Proof.Machine
end

