-- ==== Sys2Proof/Machine/Fetch.lean ====
section
/-! DEFINITION. The fetch and decode stages of a step (10_state.md R61; 20_memory.md R84; priority 60_exceptions.md R406). -/

namespace Sys2Proof.Machine

/-- `MemRead(a, 2)` of R84: the byte at the lower address is the high-order byte. -/
def Memory.readWord (m : Memory) (a : Nat) : Word := wordOfBytes (m.read a) (m.read (a + 1))

/-- A word at `a`, byte by byte, where the addresses exist. -/
def Memory.placeWord (m : Memory) (a : Nat) (w : Word) : Memory :=
  if rangeInMemory a 2 then m.writeBytes a [highByte w, lowByte w] else m

/-- The word at PC. -/
def State.fetchWord (s : State) : Word := s.mem.readWord s.pc.toNat

/-- Fetch and decode, with the three checks in the order of R406: the instruction, or the record of the fault. -/
def State.fetchDecode (s : State) : Except FaultRecord Instr :=
  if s.pc.getLsbD 0 then .error (.misaligned s.pc)
  else if 0xFFE < s.pc.toNat then .error (.boundsAtFetch s.pc)
  else
    match decode s.cfg.alu8Map s.fetchWord with
    | .ok i => .ok i
    | .error _ => .error (.decodeFailure s.pc s.fetchWord)

end Sys2Proof.Machine
end

