-- ==== Sys2Proof/Machine/Step.lean ====
section
/-! DEFINITION. `step()` (10_state.md R61). -/

namespace Sys2Proof.Machine

/-- One `step()` transaction. In FAULTED and STOPPED it has no effect (D24); in AWAITING_KEY it polls (R294); in RUNNING it
fetches, decodes and executes, and a fetch-stage fault is taken (R402). -/
def step (s : State) : Host.Outcome State Fault Refusal :=
  match s.run with
  | .faulted => .next s
  | .stopped => .next s
  | .awaitingKey => .next (keyWaitPoll s)
  | .running =>
    match s.fetchDecode with
    | .error r => .next (s.raise r)
    | .ok i => exec i s

/-- The state whose next step fetches and runs the word `w` (bits numbered as spec/opcode_table.json numbers them): the
word is stored at PC, high byte first, and RUN is RUNNING. It stands for the host's boot-time load (log entry 13). -/
def State.withFetchWord (s : State) (nbits w : Nat) : State :=
  { s with mem := s.mem.placeWord s.pc.toNat (BitVec.ofNat 16 (w % 2 ^ nbits)), run := .running }

end Sys2Proof.Machine
end

