-- ==== Sys2Proof/Machine/Transactions.lean ====
section
/-! DEFINITION. The host's transactions (10_state.md R60 to R71), the tick (44_keys_timers.md R299) and the boot
(70_reset_and_hazards.md R453 to R455). Each is one atomic function of the state; a run is a list of calls in an order the
host chooses (R70; log entry 9). -/

namespace Sys2Proof.Machine

/-! ## Inputs -/

/-- "Decrement toward zero; never wrap below zero". -/
def countDown (b : Byte) : Byte := if b = 0 then 0 else b - 1

/-- `tick_timers()` (R299): in RUNNING and AWAITING_KEY only (D24, D25). -/
def tickTimers (s : State) : State :=
  match s.run with
  | .running => { s with dt := countDown s.dt, st := countDown s.st }
  | .awaitingKey => { s with dt := countDown s.dt, st := countDown s.st }
  | .faulted => s
  | .stopped => s

/-- The mask with only bit k set. -/
def keyMask (k : Key) : Word := BitVec.twoPow 16 k.val

/-- `set_key(k)` (R64): in every run state. -/
def setKey (k : Key) (s : State) : State := { s with keys := s.keys ||| keyMask k }

/-- `unset_key(k)` (R64). -/
def unsetKey (k : Key) (s : State) : State := { s with keys := s.keys &&& ~~~(keyMask k) }

/-- `quit()` (R65): from RUNNING or AWAITING_KEY to STOPPED; no effect in FAULTED or STOPPED. -/
def quit (s : State) : State :=
  match s.run with
  | .running => { s with run := .stopped }
  | .awaitingKey => { s with run := .stopped }
  | .faulted => s
  | .stopped => s

/-! ## Reads -/

/-- `redraw_pending()` (R66). -/
def redrawPending (s : State) : Bool := s.redraw

/-- The screen as a grid: H rows of W pixels, top row first. -/
def Screen.grid (c : Config) (sc : Screen) : List (List Bool) :=
  (List.range c.height).map fun py => (List.range c.width).map fun px => sc.getPixel ⟨px, py⟩

/-- `read_buffer()` (R67): a copy of SCREEN; then REDRAW is cleared. -/
def readBuffer (s : State) : List (List Bool) × State := (s.screen.grid s.cfg, { s with redraw := false })

/-- `is_awaiting_key()` (R68). -/
def isAwaitingKey (s : State) : Bool := s.run = .awaitingKey

/-- `fault_status()` (R69). -/
def faultStatus (s : State) : Option FaultRecord := s.fault

/-- `sound_active()` (R300). -/
def soundActive (s : State) : Bool := s.st ≠ 0

/-! ## One call -/

/-- What the host may call once the machine has booted (R60; `load` is boot only, R71). -/
inductive HostCall where
  | step
  | tickTimers
  | setKey (k : Key)
  | unsetKey (k : Key)
  | quit
  | redrawPending
  | readBuffer
  | isAwaitingKey
  | faultStatus
  | soundActive
  deriving DecidableEq, Repr

/-- The state after a call. -/
def HostCall.after (c : HostCall) (s : State) : Host.Outcome State Fault Refusal :=
  match c with
  | .step => Machine.step s
  | .tickTimers => .next (Machine.tickTimers s)
  | .setKey k => .next (Machine.setKey k s)
  | .unsetKey k => .next (Machine.unsetKey k s)
  | .quit => .next (Machine.quit s)
  | .redrawPending => .next s
  | .readBuffer => .next (Machine.readBuffer s).2
  | .isAwaitingKey => .next s
  | .faultStatus => .next s
  | .soundActive => .next s

/-- What a call answers. -/
inductive Answer where
  | none
  | flag (b : Bool)
  | grid (g : List (List Bool))
  | fault (r : Option FaultRecord)
  deriving DecidableEq, Repr

def HostCall.answer (c : HostCall) (s : State) : Answer :=
  match c with
  | .step => .none
  | .tickTimers => .none
  | .setKey _ => .none
  | .unsetKey _ => .none
  | .quit => .none
  | .redrawPending => .flag (Machine.redrawPending s)
  | .readBuffer => .grid (Machine.readBuffer s).1
  | .isAwaitingKey => .flag (Machine.isAwaitingKey s)
  | .faultStatus => .fault (Machine.faultStatus s)
  | .soundActive => .flag (Machine.soundActive s)

/-- The calls of a list one after another. -/
def callAll : List HostCall → State → Host.Outcome State Fault Refusal
  | [], s => .next s
  | c :: cs, s =>
    match c.after s with
    | .next s' => callAll cs s'
    | .fault r => .fault r
    | .refused r => .refused r

/-! ## Boot -/

/-- `load(data, offset)` (R455): on failure no byte is written and LoadError is recorded (D31). -/
def load (data : List Byte) (offset : Word) (s : State) : State :=
  if offset.toNat + data.length > Memory.size then s.raise (.load offset data.length)
  else s.setMem (s.mem.writeBytes offset.toNat data)

/-- ROM_BASE (R6). -/
def romBase : Word := 0x200

/-- R454: the font at 0x050. -/
def loadFont (s : State) : State := load s.cfg.font.toList fontBase s

/-- The boot sequence of R453: construct, load the font, load the ROM image. -/
def boot (cfg : Config) (rom : List Byte) : State := load rom romBase (loadFont (State.fresh cfg))

end Sys2Proof.Machine
end

