-- ==== Sys2Proof/Safety.lean ====
section
/-! DEFINITION. The terms claims are stated in: which parts a step leaves unchanged, the invariant of reachable states,
reachability under every interleaving of host calls, the end of a run. -/

namespace Sys2Proof.Machine

/-! ## Frames -/

/-- The components of the state. -/
inductive Part where
  | cfg | regs | index | pc | sp | stack | delay | sound | mem | screen | keys | run | waitX | redraw | fault
  | draws | events
  deriving DecidableEq, Repr

/-- `s` and `t` agree on a component; memory and screen are compared through the model's read of one byte or pixel. -/
def Unchanged (s t : State) : Part → Prop
  | .cfg => t.cfg = s.cfg
  | .regs => ∀ j : Reg, t.getV j = s.getV j
  | .index => t.index = s.index
  | .pc => t.pc = s.pc
  | .sp => t.sp = s.sp
  | .stack => ∀ j : Fin 16, t.stack[j] = s.stack[j]
  | .delay => t.dt = s.dt
  | .sound => t.st = s.st
  | .mem => ∀ a : Nat, t.mem.read a = s.mem.read a
  | .screen => ∀ p : Pixel, t.screen.getPixel p = s.screen.getPixel p
  | .keys => t.keys = s.keys
  | .run => t.run = s.run
  | .waitX => t.waitX = s.waitX
  | .redraw => t.redraw = s.redraw
  | .fault => t.fault = s.fault
  | .draws => t.draws = s.draws
  | .events => t.events = s.events

/-- Every component not in the list is unchanged. -/
def OnlyChanges (parts : List Part) (s t : State) : Prop := ∀ p : Part, p ∉ parts → Unchanged s t p

/-- Every general register but those in the list is unchanged. -/
def OnlyRegs (regs : List Reg) (s t : State) : Prop := ∀ j : Reg, j ∉ regs → t.getV j = s.getV j

/-- The outcome is the fatal error with this record, taken from `s`: FAULT and RUN are written, nothing else (R402). -/
def Raises (o : Host.Outcome State Fault Refusal) (s : State) (r : FaultRecord) : Prop :=
  ∃ t, o = .next t ∧ t.fault = some r ∧ t.run = .faulted ∧ OnlyChanges [.fault, .run] s t

/-- The instruction completes in every state: V[x] gets the value, no other register changes, PC advances by 2. -/
def WritesOneReg (i : Instr) (x : Reg) (val : State → Byte) : Prop :=
  ∀ s : State, ∃ t, exec i s = .next t ∧ t.getV x = val s ∧ OnlyRegs [x] s t ∧ t.pc = s.pc + 2 ∧
    OnlyChanges [.regs, .pc] s t

/-- The instruction completes in every state: it skips one instruction exactly when the condition holds (R140). -/
def SkipsWhen (i : Instr) (cond : State → Prop) : Prop :=
  ∀ s : State, ∃ t, exec i s = .next t ∧ (cond s → t.pc = s.pc + 4) ∧ (¬ cond s → t.pc = s.pc + 2) ∧
    OnlyChanges [.pc] s t

/-! ## Sprites (43_display.md R263), in plain arithmetic

The columns of all rows are numbered in plotting order: number k is row k / 8, column k % 8. -/

/-- Whether the sprite at I has a set bit at number k. -/
def spriteBit (s : State) (k : Nat) : Bool := (s.mem.read (s.index.toNat + k / 8)).getLsbD (7 - k % 8)

/-- Where number k of the sprite with origin (V[x], V[y]) lands: per-axis wrap. -/
def spriteAt (s : State) (x y : Reg) (k : Nat) : Pixel :=
  ⟨((s.getV x).toNat + k % 8) % s.cfg.width, ((s.getV y).toNat + k / 8) % s.cfg.height⟩

/-- How often the first k numbers plot the pixel p. -/
def plotCount (s : State) (x y : Reg) (k : Nat) (p : Pixel) : Nat :=
  ((List.range k).filter fun j => spriteBit s j && decide (spriteAt s x y j = p)).length

/-! ## The invariant -/

/-- R401: which fields a record of each kind carries. A bounds error carries the word unless it is the fetch's. -/
def FaultRecord.wf (r : FaultRecord) : Bool :=
  match r.kind with
  | .decodeError => r.pc.isSome && r.word.isSome && r.addr.isNone && r.value.isNone
  | .memoryBoundsError => r.pc.isSome && r.addr.isSome && r.value.isNone
  | .stackOverflow => r.pc.isSome && r.word.isSome && r.addr.isNone && r.value.isNone
  | .stackUnderflow => r.pc.isSome && r.word.isSome && r.addr.isNone && r.value.isNone
  | .loadError => r.pc.isNone && r.word.isNone && r.addr.isSome && r.value.isSome
  | .pcMisaligned => r.pc.isSome && r.word.isNone && r.addr.isNone && r.value.isNone
  | .keyRangeError => r.pc.isSome && r.word.isSome && r.addr.isNone && r.value.isSome

/-- What holds of every state a machine with a legal configuration can be in. -/
structure State.Inv (s : State) : Prop where
  /-- R7 -/
  cfg_wf : s.cfg.wf
  /-- R12, R34 -/
  index_le : s.index.toNat ≤ 0xFFF
  /-- R157 -/
  pc_le : s.pc.toNat ≤ 0x10FE
  /-- R157: every slot holds an address some CALL pushed, or the reset value; it is even, since a fetch is -/
  stack_slot : ∀ j : Fin 16, s.stack[j].toNat ≤ 0x1000 ∧ s.stack[j].toNat % 2 = 0
  /-- R80: the memory keeps its canonical form -/
  mem_wf : s.mem.wf
  /-- R39: the screen keeps its canonical form, inside W×H -/
  screen_wf : s.screen.wf s.cfg
  /-- R402, R405: a fault is recorded exactly in FAULTED -/
  fault_run : s.run = .faulted ↔ s.fault.isSome
  /-- R401 -/
  fault_wf : ∀ r, s.fault = some r → r.wf
  /-- R294: "V[WAIT_X] <= 0xF, checked at KEY_WAIT" -/
  wait_key : s.run = .awaitingKey → s.cfg.keyWaitMode = .designatedVx → (s.getV s.waitX).toNat ≤ 0xF

/-! ## Runs -/

/-- Every state some boot and some interleaving of host calls leads to (R70, R450, R453). -/
inductive Reachable : State → Prop where
  | boot (cfg : Config) (rom : List Byte) (h : cfg.wf) : Reachable (boot cfg rom)
  | call (c : HostCall) (s t : State) (hs : Reachable s) (ht : c.after s = .next t) : Reachable t

/-- R466: "A run has ended when RUN ∈ {FAULTED, STOPPED}". -/
def State.ended (s : State) : Bool := s.run = .faulted || s.run = .stopped

end Sys2Proof.Machine
end

