-- ==== Sys2Proof/Certificates/Slice0/Obligations.lean ====
section
/-! DEFINITION. The statements for the provers: what the numbered rules of spec/ say the machine does, the frame of every
instruction, the encodings, the invariant of every run. A clause that rests on a decision the spec marks as its own
(a row D<n> of spec/92_eei_decisions.md) or on a choice of the model (a log entry) says so in its docstring. -/

open Sys2Proof Sys2Proof.Machine

/-! ## Reset and boot -/

/-- The fresh machine of R46: every value of its table, for every configuration; the values for registers are the spec's
own decisions D4 and D5. `State.reset` is one such machine, 64×32. -/
def Obligations.FreshMachineHoldsResetValues : Prop :=
  (∀ cfg : Config,
    (State.fresh cfg).cfg = cfg ∧ (∀ j : Reg, (State.fresh cfg).getV j = 0) ∧ (State.fresh cfg).index = 0 ∧
    (State.fresh cfg).pc = 0x200 ∧ (State.fresh cfg).sp = 0 ∧ (∀ j : Fin 16, (State.fresh cfg).stack[j] = 0) ∧
    (State.fresh cfg).dt = 0 ∧ (State.fresh cfg).st = 0 ∧ (∀ a : Nat, (State.fresh cfg).mem.read a = 0) ∧
    (∀ p : Pixel, (State.fresh cfg).screen.getPixel p = false) ∧ (State.fresh cfg).keys = 0 ∧
    (State.fresh cfg).run = .running ∧ (State.fresh cfg).waitX = 0 ∧ (State.fresh cfg).redraw = false ∧
    (State.fresh cfg).fault = none) ∧
  State.reset = State.fresh State.reset.cfg ∧ State.reset.cfg.width = 64 ∧ State.reset.cfg.height = 32

/-- R453 to R455: after boot the font lies at 0x050, the ROM image at 0x200, every other byte is 0, and nothing but memory
differs from the fresh machine (a ROM of at most 3584 bytes). -/
def Obligations.BootPlacesFontAndRom : Prop :=
  ∀ (cfg : Config) (rom : List Byte), rom.length ≤ 3584 →
    OnlyChanges [.mem] (State.fresh cfg) (boot cfg rom) ∧
    (∀ (k : Nat) (h : k < 80), (boot cfg rom).mem.read (0x050 + k) = cfg.font[k]) ∧
    (∀ (k : Nat) (h : k < rom.length), (boot cfg rom).mem.read (0x200 + k) = rom[k]) ∧
    (∀ a : Nat, a < 0x050 ∨ (0x0A0 ≤ a ∧ a < 0x200) ∨ 0x200 + rom.length ≤ a → (boot cfg rom).mem.read a = 0)

/-- R455: `load` copies the bytes when they fit; when they do not, no byte is written and LoadError is recorded (D31). -/
def Obligations.LoadCopiesOrRecordsLoadError : Prop :=
  ∀ (data : List Byte) (offset : Word) (s : State),
    (offset.toNat + data.length ≤ 4096 →
      (∀ (k : Nat) (h : k < data.length), (load data offset s).mem.read (offset.toNat + k) = data[k]) ∧
      (∀ a : Nat, a < offset.toNat ∨ offset.toNat + data.length ≤ a →
        (load data offset s).mem.read a = s.mem.read a) ∧
      OnlyChanges [.mem] s (load data offset s)) ∧
    (4096 < offset.toNat + data.length →
      Raises (.next (load data offset s)) s ⟨.loadError, none, none, some offset, some data.length⟩)

/-! ## Memory and screen -/

/-- R82: `get` and `set` fail exactly above 0xFFF; a set byte is read back and no other address changes. -/
def Obligations.MemoryAccessContract : Prop :=
  ∀ (m : Memory) (a : Nat) (b : Byte),
    (0xFFF < a → m.get a = none ∧ m.set a b = none) ∧
    (a ≤ 0xFFF → m.get a = some (m.read a) ∧
      ∃ m', m.set a b = some m' ∧ m'.read a = b ∧ ∀ a' : Nat, a' ≠ a → m'.read a' = m.read a')

/-- The model's own representation (log entries 10 and 14): a write in the address space keeps the memory's canonical form,
a toggle inside the screen keeps the screen's, and contents that read the same are the same data. -/
def Obligations.MemoryAndScreenFormsAreCanonical : Prop :=
  (∀ (m : Memory) (a : Nat) (b : Byte), m.wf → a ≤ 0xFFF → (m.write a b).wf) ∧
  (∀ m m' : Memory, m.wf → m'.wf → (∀ a : Nat, m.read a = m'.read a) → m = m') ∧
  (∀ (c : Config) (sc : Screen) (p : Pixel), sc.wf c → p.px < c.width → p.py < c.height → (sc.toggle p).wf c) ∧
  (∀ (c : Config) (sc sc' : Screen), sc.wf c → sc'.wf c → (∀ p : Pixel, sc.getPixel p = sc'.getPixel p) → sc = sc')

/-- R260: `clear` turns every pixel off; `xor` toggles its pixel only and returns its previous value. For a pixel outside
W×H, which the spec's SCREEN does not have (R10, R261) and no instruction passes, that `xor` toggles it too, without the
buffer's fatal error, is the model's choice (log entry 10, DESIGN CHOICE). -/
def Obligations.ScreenBufferOperations : Prop :=
  (∀ p : Pixel, Screen.blank.getPixel p = false) ∧
  ∀ (sc : Screen) (p q : Pixel),
    (sc.xor p).2 = sc.getPixel p ∧ (sc.xor p).1.getPixel p = !(sc.getPixel p) ∧
    (q ≠ p → (sc.xor p).1.getPixel q = sc.getPixel q)

/-! ## Encoding -/

/-- R127, the source's three worked examples, under either ALU_8_MAP. -/
def Obligations.WrittenOutWordsDecode : Prop :=
  ∀ m : Alu8Map,
    decode m 0x00E0 = .ok .clear ∧
    decode m 0x1ABC = .ok (.jump 0xABC) ∧
    decode m 0x6A07 = .ok (.loadImm 0xA 0x07)

/-- Every well-formed instruction is what the decoder reads from its word and from its two bytes (R114, R125). -/
def Obligations.DecodeOfEncodeIsIdentity : Prop :=
  ∀ (m : Alu8Map) (i : Instr), i.wellFormed m = true →
    decode m (encode m i) = .ok i ∧
    ∀ rest : List Byte, decodeBytes m (highByte (encode m i) :: lowByte (encode m i) :: rest) = .ok (i, rest)

/-- The other direction: a decoded instruction is well-formed, and its word is the word it came from, but for the low
nibble of 5xyd and 9xyd, which decoding ignores (R123) and the encoder writes 0. -/
def Obligations.EncodeOfDecodeIsIdentityUpToIgnoredBits : Prop :=
  ∀ (m : Alu8Map) (w : Word) (i : Instr), decode m w = .ok i →
    i.wellFormed m = true ∧
    (encode m i = w ∨
      ((w.toNat / 4096 = 5 ∨ w.toNat / 4096 = 9) ∧ (encode m i).toNat = w.toNat - w.toNat % 16))

/-- R115, R116, R117 and R120, word by word, under either ALU_8_MAP. -/
def Obligations.DecodeTableAsWritten : Prop :=
  ∀ (m : Alu8Map) (x y : Reg) (n : Nibble) (kk : Byte) (nnn : Addr),
    -- R115
    decode m 0x00E0 = .ok .clear ∧ decode m 0x00EE = .ok .ret ∧
    (nnn ≠ 0x0E0 → nnn ≠ 0x0EE → decode m (BitVec.ofNat 16 nnn.toNat) = .ok (.syscall nnn)) ∧
    -- R116
    decode m (BitVec.ofNat 16 (0x1000 + nnn.toNat)) = .ok (.jump nnn) ∧
    decode m (BitVec.ofNat 16 (0x2000 + nnn.toNat)) = .ok (.call nnn) ∧
    decode m (BitVec.ofNat 16 (0x3000 + 0x100 * x.val + kk.toNat)) = .ok (.skipEqImm x kk) ∧
    decode m (BitVec.ofNat 16 (0x4000 + 0x100 * x.val + kk.toNat)) = .ok (.skipNeqImm x kk) ∧
    decode m (BitVec.ofNat 16 (0x5000 + 0x100 * x.val + 0x10 * y.val + n.toNat)) = .ok (.skipEqReg x y) ∧
    decode m (BitVec.ofNat 16 (0x6000 + 0x100 * x.val + kk.toNat)) = .ok (.loadImm x kk) ∧
    decode m (BitVec.ofNat 16 (0x7000 + 0x100 * x.val + kk.toNat)) = .ok (.addImm x kk) ∧
    decode m (BitVec.ofNat 16 (0x9000 + 0x100 * x.val + 0x10 * y.val + n.toNat)) = .ok (.skipNeqReg x y) ∧
    decode m (BitVec.ofNat 16 (0xA000 + nnn.toNat)) = .ok (.loadIndex nnn) ∧
    decode m (BitVec.ofNat 16 (0xB000 + nnn.toNat)) = .ok (.jumpIndexed nnn) ∧
    decode m (BitVec.ofNat 16 (0xC000 + 0x100 * x.val + kk.toNat)) = .ok (.random x kk) ∧
    decode m (BitVec.ofNat 16 (0xD000 + 0x100 * x.val + 0x10 * y.val + n.toNat)) = .ok (.draw x y n) ∧
    -- R117
    decode m (BitVec.ofNat 16 (0x8000 + 0x100 * x.val + 0x10 * y.val)) = .ok (.move x y) ∧
    decode m (BitVec.ofNat 16 (0x8001 + 0x100 * x.val + 0x10 * y.val)) = .ok (.or x y) ∧
    decode m (BitVec.ofNat 16 (0x8002 + 0x100 * x.val + 0x10 * y.val)) = .ok (.and x y) ∧
    decode m (BitVec.ofNat 16 (0x8003 + 0x100 * x.val + 0x10 * y.val)) = .ok (.xor x y) ∧
    decode m (BitVec.ofNat 16 (0x8004 + 0x100 * x.val + 0x10 * y.val)) = .ok (.addReg x y) ∧
    decode m (BitVec.ofNat 16 (0x8005 + 0x100 * x.val + 0x10 * y.val)) = .ok (.subReg x y) ∧
    decode m (BitVec.ofNat 16 (0x8006 + 0x100 * x.val + 0x10 * y.val)) = .ok (.shiftRight x y) ∧
    (n.toNat ∈ [0x8, 0x9, 0xA, 0xB, 0xC, 0xD, 0xF] →
      ∃ r, decode m (BitVec.ofNat 16 (0x8000 + 0x100 * x.val + 0x10 * y.val + n.toNat)) = .error r) ∧
    -- R120
    decode m (BitVec.ofNat 16 (0xE09E + 0x100 * x.val)) = .ok (.skipIfKey x) ∧
    decode m (BitVec.ofNat 16 (0xE0A1 + 0x100 * x.val)) = .ok (.skipIfNotKey x) ∧
    (kk.toNat ≠ 0x9E → kk.toNat ≠ 0xA1 →
      ∃ r, decode m (BitVec.ofNat 16 (0xE000 + 0x100 * x.val + kk.toNat)) = .error r)

/-- R118, R119 and R121: 8xy7 and 8xyE under each ALU_8_MAP (D6), and the F family with the low bytes the spec assigns from
general knowledge (D7). -/
def Obligations.DecodeOfParameterAndMiscFamilies : Prop :=
  ∀ (m : Alu8Map) (x y : Reg) (kk : Byte),
    decode .table (BitVec.ofNat 16 (0x8007 + 0x100 * x.val + 0x10 * y.val)) = .ok (.shiftLeft x y) ∧
    (∃ r, decode .table (BitVec.ofNat 16 (0x800E + 0x100 * x.val + 0x10 * y.val)) = .error r) ∧
    decode .conventional (BitVec.ofNat 16 (0x8007 + 0x100 * x.val + 0x10 * y.val)) = .ok (.subReverse x y) ∧
    decode .conventional (BitVec.ofNat 16 (0x800E + 0x100 * x.val + 0x10 * y.val)) = .ok (.shiftLeft x y) ∧
    decode m (BitVec.ofNat 16 (0xF007 + 0x100 * x.val)) = .ok (.timerGet x) ∧
    decode m (BitVec.ofNat 16 (0xF00A + 0x100 * x.val)) = .ok (.keyWait x) ∧
    decode m (BitVec.ofNat 16 (0xF015 + 0x100 * x.val)) = .ok (.timerSetDelay x) ∧
    decode m (BitVec.ofNat 16 (0xF018 + 0x100 * x.val)) = .ok (.timerSetSound x) ∧
    decode m (BitVec.ofNat 16 (0xF01E + 0x100 * x.val)) = .ok (.indexAdd x) ∧
    decode m (BitVec.ofNat 16 (0xF029 + 0x100 * x.val)) = .ok (.fontAddr x) ∧
    decode m (BitVec.ofNat 16 (0xF033 + 0x100 * x.val)) = .ok (.bcdStore x) ∧
    decode m (BitVec.ofNat 16 (0xF055 + 0x100 * x.val)) = .ok (.regDump x) ∧
    decode m (BitVec.ofNat 16 (0xF065 + 0x100 * x.val)) = .ok (.regLoad x) ∧
    (kk.toNat ∉ [0x07, 0x0A, 0x15, 0x18, 0x1E, 0x29, 0x33, 0x55, 0x65] →
      ∃ r, decode m (BitVec.ofNat 16 (0xF000 + 0x100 * x.val + kk.toNat)) = .error r)

/-- R122: the words that are no instruction, exactly. -/
def Obligations.DecodeFailsExactlyOnIllegalWords : Prop :=
  ∀ (m : Alu8Map) (w : Word),
    (∃ r, decode m w = .error r) ↔
      (w.toNat / 4096 = 0x8 ∧ w.toNat % 16 ∈ [0x8, 0x9, 0xA, 0xB, 0xC, 0xD, 0xF]) ∨
      (m = .table ∧ w.toNat / 4096 = 0x8 ∧ w.toNat % 16 = 0xE) ∨
      (w.toNat / 4096 = 0xE ∧ w.toNat % 256 ∉ [0x9E, 0xA1]) ∨
      (w.toNat / 4096 = 0xF ∧ w.toNat % 256 ∉ [0x07, 0x0A, 0x15, 0x18, 0x1E, 0x29, 0x33, 0x55, 0x65])

/-! ## The step -/

/-- R61: in RUNNING, with an even PC of at most 0xFFE, a step is the execution of the instruction the two bytes at PC
decode to, high byte first (D1); `exec` advances PC itself (log entry 12). `withFetchWord` places such a word. -/
def Obligations.StepRunsDecodedInstruction : Prop :=
  (∀ (s : State) (i : Instr), s.run = .running → s.pc.toNat % 2 = 0 → s.pc.toNat ≤ 0xFFE →
    decode s.cfg.alu8Map (BitVec.ofNat 16
      ((s.mem.read s.pc.toNat).toNat * 256 + (s.mem.read (s.pc.toNat + 1)).toNat)) = .ok i →
    step s = exec i s) ∧
  (∀ (s : State) (w : Nat) (i : Instr), s.pc.toNat % 2 = 0 → s.pc.toNat ≤ 0xFFE → w < 65536 →
    decode s.cfg.alu8Map (BitVec.ofNat 16 w) = .ok i →
    step (s.withFetchWord 16 w) = exec i (s.withFetchWord 16 w))

/-- R61, R400 and R406: the three fetch-stage faults, in their order of priority (D2, D30), each taken precisely. -/
def Obligations.StepTakesFetchStageFaults : Prop :=
  ∀ s : State, s.run = .running →
    (s.pc.toNat % 2 = 1 → Raises (step s) s ⟨.pcMisaligned, some s.pc, none, none, none⟩) ∧
    (s.pc.toNat % 2 = 0 → 0xFFE < s.pc.toNat →
      Raises (step s) s ⟨.memoryBoundsError, some s.pc, none, some s.pc, none⟩) ∧
    (s.pc.toNat % 2 = 0 → s.pc.toNat ≤ 0xFFE → ∀ (w : Word) (r : DecodeReject),
      w.toNat = (s.mem.read s.pc.toNat).toNat * 256 + (s.mem.read (s.pc.toNat + 1)).toNat →
      decode s.cfg.alu8Map w = .error r →
      Raises (step s) s ⟨.decodeError, some s.pc, some w, none, none⟩)

/-- R402 and R403 (D3): a step that ends in FAULTED leaves everything but FAULT and RUN as before, and its record names the
faulting instruction's address and, when the word was read, the fetched word (R401, D30). -/
def Obligations.FaultsArePreciseAndRecorded : Prop :=
  ∀ s t : State, s.run = .running → step s = .next t → t.run = .faulted →
    OnlyChanges [.fault, .run] s t ∧
    ∃ r, t.fault = some r ∧ r.wf = true ∧ r.pc = some s.pc ∧ r.kind ≠ .loadError ∧
      (r.word = none ↔ s.pc.toNat % 2 = 1 ∨ 0xFFE < s.pc.toNat) ∧
      ∀ w, r.word = some w →
        w.toNat = (s.mem.read s.pc.toNat).toNat * 256 + (s.mem.read (s.pc.toNat + 1)).toNat

/-- R405, R65, R466 (D23, D24): once a run has ended, no list of host calls changes anything but the keys and the
redraw-pending flag. -/
def Obligations.EndedRunsStayEnded : Prop :=
  ∀ (cs : List HostCall) (s : State), s.run = .faulted ∨ s.run = .stopped →
    ∃ t, callAll cs s = .next t ∧ OnlyChanges [.keys, .redraw] s t

/-- R294: a step in AWAITING_KEY, in either KEY_WAIT_MODE (D8, D9). A register value above 0xF, which no wait of the second
mode can have, names no key, and nothing changes (log entry 16). -/
def Obligations.KeyWaitPollResult : Prop :=
  ∀ s : State, s.run = .awaitingKey → ∃ t, step s = .next t ∧
    (s.cfg.keyWaitMode = .anyStore →
      (s.keys = 0 → t = s) ∧
      ∀ k : Key, s.keys.getLsbD k.val = true → (∀ j : Key, j < k → s.keys.getLsbD j.val = false) →
        t.getV s.waitX = BitVec.ofNat 8 k.val ∧ OnlyRegs [s.waitX] s t ∧ t.run = .running ∧
        OnlyChanges [.regs, .run] s t) ∧
    (s.cfg.keyWaitMode = .designatedVx →
      (s.keys.getLsbD (s.getV s.waitX).toNat = true → t.run = .running ∧ OnlyChanges [.run] s t) ∧
      (s.keys.getLsbD (s.getV s.waitX).toNat = false → t = s))

/-- Every host call answers a next state from every state: no instruction and no call is refused or stops the model, and
none changes the configuration (R7, R110; log entries 1 and 7). -/
def Obligations.EveryHostCallCompletes : Prop :=
  ∀ (c : HostCall) (s : State), ∃ t, c.after s = .next t ∧ t.cfg = s.cfg

/-! ## The invariant of every run -/

/-- The invariant holds at reset, and of the fresh machine of every legal configuration. -/
def Obligations.InvariantHoldsAtReset : Prop :=
  State.reset.Inv ∧ ∀ cfg : Config, cfg.wf → (State.fresh cfg).Inv

/-- Every step keeps it: I within 12 bits, PC at most 0x10FE, even return addresses of at most 0x1000, memory and screen
canonical, a fault recorded exactly in FAULTED and with the fields of its kind, a designated wait on a legal key. -/
def Obligations.EveryStepKeepsInvariant : Prop :=
  ∀ s t : State, s.Inv → step s = .next t → t.Inv

/-- So it holds of every state that some boot and some interleaving of host calls leads to (R70). -/
def Obligations.ReachableStatesMeetInvariant : Prop :=
  ∀ s : State, Reachable s → s.Inv

/-! ## Whole-machine rules -/

/-- R12: every write of I stores the value masked to 12 bits, so an instruction that changes I leaves at most 0xFFF in it,
and in every reachable state the top four bits are zero. -/
def Obligations.IndexIsMaskedOnEveryWrite : Prop :=
  (∀ (s : State) (a : Word), (s.setIndex a).index = a &&& 0xFFF) ∧
  (∀ (i : Instr) (s t : State), exec i s = .next t → t.index ≠ s.index → t.index.toNat ≤ 0xFFF) ∧
  (∀ s : State, Reachable s → s.index &&& 0xF000 = 0)

/-- R34 (D14: no access moves I), R35, R36: only LOAD_INDEX, INDEX_ADD and FONT_ADDR change I, and only CALL and RETURN
change the stack and its pointer. -/
def Obligations.IndexAndStackWriters : Prop :=
  ∀ (c : HostCall) (s t : State), c.after s = .next t →
    (t.index ≠ s.index → c = .step ∧ s.run = .running ∧
      ((∃ nnn, s.fetchDecode = .ok (.loadIndex nnn)) ∨ (∃ x, s.fetchDecode = .ok (.indexAdd x)) ∨
        (∃ x, s.fetchDecode = .ok (.fontAddr x)))) ∧
    (¬ (Unchanged s t .sp ∧ Unchanged s t .stack) → c = .step ∧ s.run = .running ∧
      (s.fetchDecode = .ok .ret ∨ ∃ nnn, s.fetchDecode = .ok (.call nnn)))

/-- R39: the screen is written only by CLEAR and DRAW. -/
def Obligations.ScreenWrittenOnlyByClearAndDraw : Prop :=
  ∀ (c : HostCall) (s t : State), c.after s = .next t → ¬ Unchanged s t .screen →
    c = .step ∧ s.run = .running ∧ (s.fetchDecode = .ok .clear ∨ ∃ x y n, s.fetchDecode = .ok (.draw x y n))

/-- R40: only `set_key` and `unset_key` write the key mask. -/
def Obligations.KeysWrittenOnlyByHost : Prop :=
  ∀ (c : HostCall) (s t : State), c.after s = .next t → t.keys ≠ s.keys →
    ∃ k : Key, c = .setKey k ∨ c = .unsetKey k

/-- R301: DT changes only through TIMER_SET_DELAY and ticks, ST only through TIMER_SET_SOUND and ticks; any other step
leaves both alone. -/
def Obligations.TimersChangeOnlyByTicksAndSetters : Prop :=
  ∀ (c : HostCall) (s t : State), c.after s = .next t →
    (t.dt ≠ s.dt → c = .tickTimers ∨
      (c = .step ∧ s.run = .running ∧ ∃ x, s.fetchDecode = .ok (.timerSetDelay x) ∧ t.dt = s.getV x)) ∧
    (t.st ≠ s.st → c = .tickTimers ∨
      (c = .step ∧ s.run = .running ∧ ∃ x, s.fetchDecode = .ok (.timerSetSound x) ∧ t.st = s.getV x))

/-- R80, R88: after boot, memory is written only by BCD_STORE and REG_DUMP, at the addresses R88 gives them. -/
def Obligations.MemoryWrittenOnlyByStores : Prop :=
  ∀ (c : HostCall) (s t : State) (a : Nat), c.after s = .next t → t.mem.read a ≠ s.mem.read a →
    c = .step ∧ s.run = .running ∧ s.ea 0 ≤ a ∧ ∃ x : Reg,
      (s.fetchDecode = .ok (.bcdStore x) ∧ a ≤ s.ea 2) ∨ (s.fetchDecode = .ok (.regDump x) ∧ a ≤ s.ea x.val)

/-- R180 (D13): VF is written by the flag-writing instructions and DRAW, and otherwise only as a named destination. -/
def Obligations.FlagRegisterWriters : Prop :=
  ∀ (i : Instr) (s t : State), exec i s = .next t → t.getV 15 ≠ s.getV 15 →
    (∃ x y, i = .addReg x y ∨ i = .subReg x y ∨ i = .shiftRight x y ∨ i = .shiftLeft x y ∨ i = .subReverse x y) ∨
    (∃ x y n, i = .draw x y n) ∨
    (∃ kk, i = .loadImm 15 kk ∨ i = .addImm 15 kk ∨ i = .random 15 kk) ∨
    (∃ y, i = .move 15 y ∨ i = .or 15 y ∨ i = .and 15 y ∨ i = .xor 15 y) ∨
    i = .timerGet 15 ∨ (i = .keyWait 15 ∧ s.cfg.keyWaitMode = .anyStore) ∨ i = .regLoad 15

/-- R41 and R414 (D23): AWAITING_KEY is entered only by KEY_WAIT, with PC behind it (R140), and left only by a step that
completes the wait or by quit. -/
def Obligations.AwaitingKeyEnteredOnlyByKeyWait : Prop :=
  ∀ (c : HostCall) (s t : State), c.after s = .next t →
    (s.run ≠ .awaitingKey → t.run = .awaitingKey →
      c = .step ∧ s.run = .running ∧ ∃ x, s.fetchDecode = .ok (.keyWait x) ∧ t.waitX = x ∧ t.pc = s.pc + 2) ∧
    (s.run = .awaitingKey → t.run ≠ .awaitingKey →
      (c = .step ∧ t.run = .running) ∨ (c = .quit ∧ t.run = .stopped))

/-- R37 and R265: no step reads ST, the redraw-pending flag or FAULT, nor the model's own event list (log entry 6): two
machines that differ only there still differ only there after a step of each. -/
def Obligations.UnreadStateDoesNotInterfere : Prop :=
  ∀ s s' t t' : State,
    s' = { s with st := s'.st, redraw := s'.redraw, fault := s'.fault, events := s'.events } →
    step s = .next t → step s' = .next t' →
    t' = { t with st := t'.st, redraw := t'.redraw, fault := t'.fault, events := t'.events }

/-! ## Register loads and ALU -/

/-- R182 to R187 and R296 (D37, D13, D21): the value, no flag, no other register, PC by 2, everything else unchanged. -/
def Obligations.RegisterWriteResults : Prop :=
  ∀ (x y : Reg) (kk : Byte),
    WritesOneReg (.loadImm x kk) x (fun _ => kk) ∧
    WritesOneReg (.addImm x kk) x (fun s => BitVec.ofNat 8 (((s.getV x).toNat + kk.toNat) % 256)) ∧
    WritesOneReg (.move x y) x (fun s => s.getV y) ∧
    WritesOneReg (.or x y) x (fun s => s.getV x ||| s.getV y) ∧
    WritesOneReg (.and x y) x (fun s => s.getV x &&& s.getV y) ∧
    WritesOneReg (.xor x y) x (fun s => s.getV x ^^^ s.getV y) ∧
    WritesOneReg (.timerGet x) x (fun s => s.dt)

/-- R188: ADD_REG; for x = F the flag stays (R181: the spec's own decision D11). -/
def Obligations.AddRegResult : Prop :=
  ∀ (x y : Reg),
    (∀ m : Alu8Map, decode m (BitVec.ofNat 16 (0x8004 + 0x100 * x.val + 0x10 * y.val)) = .ok (.addReg x y)) ∧
    ∀ s : State, ∃ t, exec (.addReg x y) s = .next t ∧
      (x ≠ 15 → t.getV x = BitVec.ofNat 8 (((s.getV x).toNat + (s.getV y).toNat) % 256)) ∧
      (255 < (s.getV x).toNat + (s.getV y).toNat → t.getV 15 = 1) ∧
      ((s.getV x).toNat + (s.getV y).toNat ≤ 255 → t.getV 15 = 0) ∧
      OnlyRegs [x, 15] s t ∧ t.pc = s.pc + 2 ∧ OnlyChanges [.regs, .pc] s t

/-- R189: SUB_REG; the flag is NOT borrow; for x = F the flag stays (R181: the spec's own decision D11). -/
def Obligations.SubRegResult : Prop :=
  ∀ (x y : Reg),
    (∀ m : Alu8Map, decode m (BitVec.ofNat 16 (0x8005 + 0x100 * x.val + 0x10 * y.val)) = .ok (.subReg x y)) ∧
    ∀ s : State, ∃ t, exec (.subReg x y) s = .next t ∧
      (x ≠ 15 → t.getV x = BitVec.ofNat 8 ((256 + (s.getV x).toNat - (s.getV y).toNat) % 256)) ∧
      ((s.getV y).toNat ≤ (s.getV x).toNat → t.getV 15 = 1) ∧
      ((s.getV x).toNat < (s.getV y).toNat → t.getV 15 = 0) ∧
      OnlyRegs [x, 15] s t ∧ t.pc = s.pc + 2 ∧ OnlyChanges [.regs, .pc] s t

/-- R192 (general knowledge, D6): SUB_REVERSE, V[y] - V[x]; for x = F the flag stays (D11). -/
def Obligations.SubReverseResult : Prop :=
  ∀ (x y : Reg) (s : State), ∃ t, exec (.subReverse x y) s = .next t ∧
    (x ≠ 15 → t.getV x = BitVec.ofNat 8 ((256 + (s.getV y).toNat - (s.getV x).toNat) % 256)) ∧
    ((s.getV x).toNat ≤ (s.getV y).toNat → t.getV 15 = 1) ∧
    ((s.getV y).toNat < (s.getV x).toNat → t.getV 15 = 0) ∧
    OnlyRegs [x, 15] s t ∧ t.pc = s.pc + 2 ∧ OnlyChanges [.regs, .pc] s t

/-- R190 and R191 (D34: V[x] is the source, y is not read): the shifted value, the bit shifted out in VF, last. -/
def Obligations.ShiftResults : Prop :=
  ∀ (x y : Reg) (s : State),
    (∃ t, exec (.shiftRight x y) s = .next t ∧
      (x ≠ 15 → (t.getV x).toNat = (s.getV x).toNat / 2) ∧ (t.getV 15).toNat = (s.getV x).toNat % 2 ∧
      OnlyRegs [x, 15] s t ∧ t.pc = s.pc + 2 ∧ OnlyChanges [.regs, .pc] s t) ∧
    (∃ t, exec (.shiftLeft x y) s = .next t ∧
      (x ≠ 15 → (t.getV x).toNat = (s.getV x).toNat * 2 % 256) ∧ (t.getV 15).toNat = (s.getV x).toNat / 128 ∧
      OnlyRegs [x, 15] s t ∧ t.pc = s.pc + 2 ∧ OnlyChanges [.regs, .pc] s t)

/-- R193 (D26): RANDOM stores a byte of 0..kk, whatever the generator gives (the free value of log entry 5). -/
def Obligations.RandomStaysWithinMask : Prop :=
  ∀ (x : Reg) (kk : Byte) (s : State), ∃ t, exec (.random x kk) s = .next t ∧
    (t.getV x).toNat ≤ kk.toNat ∧ OnlyRegs [x] s t ∧ t.pc = s.pc + 2 ∧ OnlyChanges [.regs, .pc, .draws] s t

/-! ## Control flow -/

/-- R145 to R148 (D28): the four compare-and-skip instructions. -/
def Obligations.CompareSkipResults : Prop :=
  ∀ (x y : Reg) (kk : Byte),
    SkipsWhen (.skipEqImm x kk) (fun s => s.getV x = kk) ∧
    SkipsWhen (.skipNeqImm x kk) (fun s => s.getV x ≠ kk) ∧
    SkipsWhen (.skipEqReg x y) (fun s => s.getV x = s.getV y) ∧
    SkipsWhen (.skipNeqReg x y) (fun s => s.getV x ≠ s.getV y)

/-- R143: JUMP; an odd target faults at the next fetch, not here (R33: the spec's own decision D2). -/
def Obligations.JumpResult : Prop :=
  ∀ (nnn : Addr),
    (∀ m : Alu8Map, decode m (BitVec.ofNat 16 (0x1000 + nnn.toNat)) = .ok (.jump nnn)) ∧
    ∀ s : State, ∃ t, exec (.jump nnn) s = .next t ∧ t.pc.toNat = nnn.toNat ∧ OnlyChanges [.pc] s t ∧
      (s.run = .running → nnn.toNat % 2 = 1 →
        Raises (step t) t ⟨.pcMisaligned, some t.pc, none, none, none⟩)

/-- R149 (D15): JUMP_INDEXED goes to nnn + V0, not masked. -/
def Obligations.JumpIndexedResult : Prop :=
  ∀ (nnn : Addr) (s : State), ∃ t, exec (.jumpIndexed nnn) s = .next t ∧
    t.pc.toNat = nnn.toNat + (s.getV 0).toNat ∧ OnlyChanges [.pc] s t

/-- R144: CALL pushes pc0 + 2, then increments SP; at depth 16 it is StackOverflow and nothing else changes. -/
def Obligations.CallResult : Prop :=
  ∀ (nnn : Addr),
    (∀ m : Alu8Map, decode m (BitVec.ofNat 16 (0x2000 + nnn.toNat)) = .ok (.call nnn)) ∧
    ∀ s : State,
      (∀ h : s.sp.val < 16, ∃ t, exec (.call nnn) s = .next t ∧ t.pc.toNat = nnn.toNat ∧
        t.sp.val = s.sp.val + 1 ∧ t.stack[s.sp.val] = s.pc + 2 ∧
        (∀ j : Fin 16, j.val ≠ s.sp.val → t.stack[j] = s.stack[j]) ∧ OnlyChanges [.pc, .sp, .stack] s t) ∧
      (s.sp.val = 16 → Raises (exec (.call nnn) s) s
        ⟨.stackOverflow, some s.pc, some (BitVec.ofNat 16 (0x2000 + nnn.toNat)), none, none⟩)

/-- R141: RETURN decrements SP, then pops; no slot changes (D33); at depth 0 it is StackUnderflow. -/
def Obligations.ReturnResult : Prop :=
  ∀ s : State,
    (∀ (k : Nat) (h : k < 16), s.sp.val = k + 1 → ∃ t, exec .ret s = .next t ∧ t.pc = s.stack[k] ∧
      t.sp.val = k ∧ OnlyChanges [.pc, .sp] s t) ∧
    (s.sp.val = 0 → Raises (exec .ret s) s ⟨.stackUnderflow, some s.pc, some 0x00EE, none, none⟩)

/-- R141, R144: a RETURN in any state with the stack a CALL left restores PC to the instruction after the CALL, and SP. -/
def Obligations.CallThenReturnRestores : Prop :=
  ∀ (nnn : Addr) (s t u : State), s.sp.val < 16 → exec (.call nnn) s = .next t →
    u.sp = t.sp → (∀ j : Fin 16, u.stack[j] = t.stack[j]) →
    ∃ v, exec .ret u = .next v ∧ v.pc = s.pc + 2 ∧ v.sp = s.sp

/-- R142 (D27): SYSCALL emits its event, held in the model's own output list (log entry 6), and does nothing else. -/
def Obligations.SyscallResult : Prop :=
  ∀ (nnn : Addr) (s : State), ∃ t, exec (.syscall nnn) s = .next t ∧
    t.events = s.events ++ [⟨s.pc, nnn⟩] ∧ t.pc = s.pc + 2 ∧ OnlyChanges [.pc, .events] s t

/-! ## Index register and memory -/

/-- R230 to R232 (D37, D13, D20): the new I; no flag, nothing else. -/
def Obligations.IndexWriteResults : Prop :=
  ∀ (x : Reg) (nnn : Addr) (s : State),
    (∃ t, exec (.loadIndex nnn) s = .next t ∧ t.index.toNat = nnn.toNat ∧ t.pc = s.pc + 2 ∧
      OnlyChanges [.index, .pc] s t) ∧
    (∃ t, exec (.indexAdd x) s = .next t ∧ t.index.toNat = (s.index.toNat + (s.getV x).toNat) % 4096 ∧
      t.pc = s.pc + 2 ∧ OnlyChanges [.index, .pc] s t) ∧
    (∃ t, exec (.fontAddr x) s = .next t ∧ t.index.toNat = 0x050 + 5 * ((s.getV x).toNat % 16) ∧
      t.pc = s.pc + 2 ∧ OnlyChanges [.index, .pc] s t)

/-- R233: BCD_STORE writes the three digits at I, I+1, I+2 and no other byte; from I = 0xFFE on it is a
MemoryBoundsError at 0x1000 (D36) and no byte is written. -/
def Obligations.BcdStoreResult : Prop :=
  ∀ (x : Reg) (s : State),
    (s.ea 2 ≤ 0xFFF → ∃ t, exec (.bcdStore x) s = .next t ∧
      (t.mem.read (s.ea 0)).toNat = (s.getV x).toNat / 100 ∧
      (t.mem.read (s.ea 1)).toNat = (s.getV x).toNat / 10 % 10 ∧
      (t.mem.read (s.ea 2)).toNat = (s.getV x).toNat % 10 ∧
      (∀ a : Nat, a < s.ea 0 ∨ s.ea 2 < a → t.mem.read a = s.mem.read a) ∧
      t.pc = s.pc + 2 ∧ OnlyChanges [.mem, .pc] s t) ∧
    (0xFFF < s.ea 2 → Raises (exec (.bcdStore x) s) s
      ⟨.memoryBoundsError, some s.pc, some (BitVec.ofNat 16 (0xF033 + 0x100 * x.val)), some 0x1000, none⟩)

/-- R234: REG_DUMP copies V0 to Vx to I..I+x and writes no other byte; I is unchanged (D14). -/
def Obligations.RegDumpResult : Prop :=
  ∀ (x : Reg) (s : State),
    (s.ea x.val ≤ 0xFFF → ∃ t, exec (.regDump x) s = .next t ∧
      (∀ j : Reg, j ≤ x → t.mem.read (s.ea j.val) = s.getV j) ∧
      (∀ a : Nat, a < s.ea 0 ∨ s.ea x.val < a → t.mem.read a = s.mem.read a) ∧
      t.pc = s.pc + 2 ∧ OnlyChanges [.mem, .pc] s t) ∧
    (0xFFF < s.ea x.val → Raises (exec (.regDump x) s) s
      ⟨.memoryBoundsError, some s.pc, some (BitVec.ofNat 16 (0xF055 + 0x100 * x.val)), some 0x1000, none⟩)

/-- R235: REG_LOAD copies I..I+x to V0 to Vx; the registers above x and I are unchanged (D14). -/
def Obligations.RegLoadResult : Prop :=
  ∀ (x : Reg) (s : State),
    (s.ea x.val ≤ 0xFFF → ∃ t, exec (.regLoad x) s = .next t ∧
      (∀ j : Reg, j ≤ x → t.getV j = s.mem.read (s.ea j.val)) ∧ (∀ j : Reg, x < j → t.getV j = s.getV j) ∧
      t.pc = s.pc + 2 ∧ OnlyChanges [.regs, .pc] s t) ∧
    (0xFFF < s.ea x.val → Raises (exec (.regLoad x) s) s
      ⟨.memoryBoundsError, some s.pc, some (BitVec.ofNat 16 (0xF065 + 0x100 * x.val)), some 0x1000, none⟩)

/-- R234, R235: a REG_LOAD x from any state with the memory and I a REG_DUMP x left gives V0 to Vx back. -/
def Obligations.DumpThenLoadRestores : Prop :=
  ∀ (x : Reg) (s t u : State), s.ea x.val ≤ 0xFFF → exec (.regDump x) s = .next t →
    u.index = t.index → (∀ a : Nat, u.mem.read a = t.mem.read a) →
    ∃ v, exec (.regLoad x) u = .next v ∧ ∀ j : Reg, j ≤ x → v.getV j = s.getV j

/-- R85, R93: two registers REG_DUMP stores at consecutive addresses are the word a fetch there reads next. -/
def Obligations.DumpedBytesAreFetched : Prop :=
  ∀ (x : Reg) (s t u : State) (j k : Reg), s.ea x.val ≤ 0xFFF → exec (.regDump x) s = .next t →
    k ≤ x → k.val = j.val + 1 → u.mem = t.mem → u.pc.toNat = s.ea j.val →
    u.fetchWord.toNat = (s.getV j).toNat * 256 + (s.getV k).toNat

/-! ## Display -/

/-- R262 (D18): CLEAR. -/
def Obligations.ClearResult : Prop :=
  ∀ s : State, ∃ t, exec .clear s = .next t ∧ (∀ p : Pixel, t.screen.getPixel p = false) ∧ t.redraw = true ∧
    t.pc = s.pc + 2 ∧ OnlyChanges [.screen, .redraw, .pc] s t

/-- R263 (D16, D17), for every screen size: each pixel is toggled as often as set sprite bits plot it; VF is 1 exactly when
some plotted pixel was on at its turn; height 0 included. A sprite that runs past 0xFFF faults, with the reported address
0x1000 (D36), and plots nothing. A width or height of 0, which R7 excludes, is covered by the model's choice for it (a
coordinate modulo 0 is itself; log entry 1, DESIGN CHOICE). -/
def Obligations.DrawResult : Prop :=
  ∀ (x y : Reg) (n : Nibble) (s : State),
    (n.toNat = 0 ∨ s.ea (n.toNat - 1) ≤ 0xFFF → ∃ t, exec (.draw x y n) s = .next t ∧
      (∀ p : Pixel, t.screen.getPixel p = (s.screen.getPixel p ^^ (plotCount s x y (8 * n.toNat) p % 2 == 1))) ∧
      (t.getV 15 = 1 ∨ t.getV 15 = 0) ∧
      (t.getV 15 = 1 ↔ ∃ k, k < 8 * n.toNat ∧ spriteBit s k = true ∧
        (s.screen.getPixel (spriteAt s x y k) ^^
          (plotCount s x y k (spriteAt s x y k) % 2 == 1)) = true) ∧
      OnlyRegs [15] s t ∧ t.redraw = true ∧ t.pc = s.pc + 2 ∧ OnlyChanges [.regs, .screen, .redraw, .pc] s t) ∧
    (n.toNat ≠ 0 → 0xFFF < s.ea (n.toNat - 1) → Raises (exec (.draw x y n) s) s
      ⟨.memoryBoundsError, some s.pc, some (BitVec.ofNat 16 (0xD000 + 0x100 * x.val + 0x10 * y.val + n.toNat)),
        some 0x1000, none⟩)

/-- R263, R264: on a screen of at least 8×15 no pixel is plotted twice in one DRAW: a pixel is toggled exactly when a set
bit lands on it, and VF is 1 exactly when a set bit lands on a pixel that was on. -/
def Obligations.DrawCollisionOnWideScreens : Prop :=
  ∀ (x y : Reg) (n : Nibble) (s t : State), 8 ≤ s.cfg.width → 15 ≤ s.cfg.height →
    (n.toNat = 0 ∨ s.ea (n.toNat - 1) ≤ 0xFFF) → exec (.draw x y n) s = .next t →
    (∀ p : Pixel, t.screen.getPixel p ≠ s.screen.getPixel p ↔
      ∃ k, k < 8 * n.toNat ∧ spriteBit s k = true ∧ spriteAt s x y k = p) ∧
    (t.getV 15 = 1 ↔ ∃ k, k < 8 * n.toNat ∧ spriteBit s k = true ∧ s.screen.getPixel (spriteAt s x y k) = true)

/-- The source's S12 (D16): drawing the same sprite at the same place twice gives the screen back, on any screen (one of
width or height 0 by the model's choice, log entry 1); and on a screen of at least 8×15 the second draw sets VF to 1 when
the first had no collision and the sprite has a set bit. With x = F or y = F the place is the same only when the first
draw's flag is the value VF had before; otherwise the second draw has another origin, and only its completion is stated
here (DrawResult says what it plots). -/
def Obligations.DrawTwiceRestoresScreen : Prop :=
  ∀ (x y : Reg) (n : Nibble) (s t : State),
    (n.toNat = 0 ∨ s.ea (n.toNat - 1) ≤ 0xFFF) → exec (.draw x y n) s = .next t →
    ∃ u, exec (.draw x y n) t = .next u ∧
      ((x ≠ 15 ∧ y ≠ 15) ∨ t.getV 15 = s.getV 15 →
        (∀ p : Pixel, u.screen.getPixel p = s.screen.getPixel p) ∧
        (8 ≤ s.cfg.width → 15 ≤ s.cfg.height → t.getV 15 = 0 → (∃ k, k < 8 * n.toNat ∧ spriteBit s k = true) →
          u.getV 15 = 1))

/-! ## Keys and timers -/

/-- R290 to R292 (D10, D28, D32): the key skips; a key number above 0xF is a KeyRangeError. -/
def Obligations.KeySkipResults : Prop :=
  ∀ (x : Reg) (s : State),
    ((s.getV x).toNat ≤ 0xF →
      (∃ t, exec (.skipIfKey x) s = .next t ∧
        (s.keys.getLsbD (s.getV x).toNat = true → t.pc = s.pc + 4) ∧
        (s.keys.getLsbD (s.getV x).toNat = false → t.pc = s.pc + 2) ∧ OnlyChanges [.pc] s t) ∧
      (∃ t, exec (.skipIfNotKey x) s = .next t ∧
        (s.keys.getLsbD (s.getV x).toNat = false → t.pc = s.pc + 4) ∧
        (s.keys.getLsbD (s.getV x).toNat = true → t.pc = s.pc + 2) ∧ OnlyChanges [.pc] s t)) ∧
    (0xF < (s.getV x).toNat →
      Raises (exec (.skipIfKey x) s) s ⟨.keyRangeError, some s.pc,
        some (BitVec.ofNat 16 (0xE09E + 0x100 * x.val)), none, some (s.getV x).toNat⟩ ∧
      Raises (exec (.skipIfNotKey x) s) s ⟨.keyRangeError, some s.pc,
        some (BitVec.ofNat 16 (0xE0A1 + 0x100 * x.val)), none, some (s.getV x).toNat⟩)

/-- R293, in both modes (D8, D9): KEY_WAIT completes at once when its condition holds, else it enters AWAITING_KEY with its
register number in WAIT_X; PC is behind it either way. -/
def Obligations.KeyWaitResult : Prop :=
  ∀ (x : Reg) (s : State),
    (s.cfg.keyWaitMode = .anyStore → ∃ t, exec (.keyWait x) s = .next t ∧ t.pc = s.pc + 2 ∧
      (s.keys = 0 → t.run = .awaitingKey ∧ t.waitX = x ∧ OnlyChanges [.pc, .run, .waitX] s t) ∧
      (∀ k : Key, s.keys.getLsbD k.val = true → (∀ j : Key, j < k → s.keys.getLsbD j.val = false) →
        t.getV x = BitVec.ofNat 8 k.val ∧ OnlyRegs [x] s t ∧ OnlyChanges [.pc, .regs] s t)) ∧
    (s.cfg.keyWaitMode = .designatedVx → (s.getV x).toNat ≤ 0xF → ∃ t, exec (.keyWait x) s = .next t ∧
      t.pc = s.pc + 2 ∧
      (s.keys.getLsbD (s.getV x).toNat = true → OnlyChanges [.pc] s t) ∧
      (s.keys.getLsbD (s.getV x).toNat = false →
        t.run = .awaitingKey ∧ t.waitX = x ∧ OnlyChanges [.pc, .run, .waitX] s t)) ∧
    (s.cfg.keyWaitMode = .designatedVx → 0xF < (s.getV x).toNat →
      Raises (exec (.keyWait x) s) s ⟨.keyRangeError, some s.pc,
        some (BitVec.ofNat 16 (0xF00A + 0x100 * x.val)), none, some (s.getV x).toNat⟩)

/-- R297 and R298 (D21): the timer setters. -/
def Obligations.TimerSetResults : Prop :=
  ∀ (x : Reg) (s : State),
    (∃ t, exec (.timerSetDelay x) s = .next t ∧ t.dt = s.getV x ∧ t.pc = s.pc + 2 ∧
      OnlyChanges [.delay, .pc] s t) ∧
    (∃ t, exec (.timerSetSound x) s = .next t ∧ t.st = s.getV x ∧ t.pc = s.pc + 2 ∧
      OnlyChanges [.sound, .pc] s t)

/-- R299 (D24, D25), S15: n ticks in RUNNING or AWAITING_KEY take n from each timer, never below zero, each by itself. -/
def Obligations.TicksCountTimersDown : Prop :=
  ∀ (n : Nat) (s : State), s.run = .running ∨ s.run = .awaitingKey →
    ∃ t, callAll (List.replicate n .tickTimers) s = .next t ∧
      t.dt.toNat = s.dt.toNat - n ∧ t.st.toNat = s.st.toNat - n ∧ OnlyChanges [.delay, .sound] s t

/-! ## Host inputs and reads -/

/-- R64 and R65 (D9, D23): a key update writes its bit and wakes nothing; quit stops a run that has not ended. -/
def Obligations.HostInputResults : Prop :=
  ∀ (k : Key) (s : State),
    (∃ t, (HostCall.setKey k).after s = .next t ∧
      (∀ j : Key, t.keys.getLsbD j.val = (decide (j = k) || s.keys.getLsbD j.val)) ∧ OnlyChanges [.keys] s t) ∧
    (∃ t, (HostCall.unsetKey k).after s = .next t ∧
      (∀ j : Key, t.keys.getLsbD j.val = (!decide (j = k) && s.keys.getLsbD j.val)) ∧ OnlyChanges [.keys] s t) ∧
    (∃ t, HostCall.quit.after s = .next t ∧ OnlyChanges [.run] s t ∧
      (s.run = .running ∨ s.run = .awaitingKey → t.run = .stopped) ∧
      (s.run = .faulted ∨ s.run = .stopped → t = s))

/-- R66 and R68: the two status reads. -/
def Obligations.StatusReadsChangeNothing : Prop :=
  ∀ s : State,
    HostCall.redrawPending.answer s = .flag s.redraw ∧ HostCall.redrawPending.after s = .next s ∧
    HostCall.isAwaitingKey.answer s = .flag (decide (s.run = .awaitingKey)) ∧
    HostCall.isAwaitingKey.after s = .next s

/-- R67, R69 and R300 (D19, D22, D30): what the other reads answer; only `read_buffer` changes anything, the
redraw-pending flag; the buffer has H rows of W pixels. -/
def Obligations.HostReadResults : Prop :=
  ∀ s : State,
    HostCall.faultStatus.answer s = .fault s.fault ∧ HostCall.faultStatus.after s = .next s ∧
    HostCall.soundActive.answer s = .flag (decide (s.st ≠ 0)) ∧ HostCall.soundActive.after s = .next s ∧
    (∃ g, HostCall.readBuffer.answer s = .grid g ∧ g.length = s.cfg.height ∧
      ∀ py : Nat, py < s.cfg.height → ∃ row, g[py]? = some row ∧ row.length = s.cfg.width ∧
        ∀ (px : Nat), px < s.cfg.width → row[px]? = some (s.screen.getPixel ⟨px, py⟩)) ∧
    (∃ t, HostCall.readBuffer.after s = .next t ∧ t.redraw = false ∧ OnlyChanges [.redraw] s t)
end

