-- ==== Sys2Proof/Laws/Encoding.lean ====
section
/-! SUPPORT. Fields, packing and bytes as arithmetic on numbers, and the fields of a packed word. -/

namespace Sys2Proof

/-! ## As numbers -/

theorem toNat_append_add {m n : Nat} (a : BitVec m) (b : BitVec n) :
    (a ++ b).toNat = a.toNat * 2 ^ n + b.toNat := by
  rw [BitVec.toNat_append, ← Nat.shiftLeft_add_eq_or_of_lt b.isLt, Nat.shiftLeft_eq]

theorem toNat_packNNN (op : Nibble) (nnn : Addr) : (packNNN op nnn).toNat = op.toNat * 4096 + nnn.toNat :=
  toNat_append_add op nnn

theorem toNat_packXKK (op : Nibble) (x : Reg) (kk : Byte) :
    (packXKK op x kk).toNat = op.toNat * 4096 + x.val * 256 + kk.toNat := by
  have h : (packXKK op x kk).toNat = _ := toNat_append_add (op ++ (BitVec.ofFin x : Nibble)) kk
  rw [h, toNat_append_add]; simp; omega

theorem toNat_packXYN (op : Nibble) (x y : Reg) (n : Nibble) :
    (packXYN op x y n).toNat = op.toNat * 4096 + x.val * 256 + y.val * 16 + n.toNat := by
  have h : (packXYN op x y n).toNat = _ :=
    toNat_append_add (op ++ (BitVec.ofFin x : Nibble) ++ (BitVec.ofFin y : Nibble)) n
  rw [h, toNat_append_add, toNat_append_add]; simp; omega

theorem toNat_opField (w : Word) : (opField w).toNat = w.toNat / 4096 := by
  simp [opField, Nat.shiftRight_eq_div_pow]; have := w.isLt; omega

theorem val_xField (w : Word) : (xField w).val = w.toNat / 256 % 16 := by
  simp [xField, Nat.shiftRight_eq_div_pow]

theorem val_yField (w : Word) : (yField w).val = w.toNat / 16 % 16 := by
  simp [yField, Nat.shiftRight_eq_div_pow]

theorem toNat_nField (w : Word) : (nField w).toNat = w.toNat % 16 := by simp [nField]

theorem toNat_kkField (w : Word) : (kkField w).toNat = w.toNat % 256 := by simp [kkField]

theorem toNat_nnnField (w : Word) : (nnnField w).toNat = w.toNat % 4096 := by simp [nnnField]

theorem toNat_wordOfBytes (hi lo : Byte) : (wordOfBytes hi lo).toNat = hi.toNat * 256 + lo.toNat :=
  toNat_append_add hi lo

theorem toNat_highByte (w : Word) : (highByte w).toNat = w.toNat / 256 := by
  simp [highByte, Nat.shiftRight_eq_div_pow]; have := w.isLt; omega

theorem toNat_lowByte (w : Word) : (lowByte w).toNat = w.toNat % 256 := by simp [lowByte]

/-- The two bytes of a word make the word (20_memory.md R84). -/
theorem wordOfBytes_high_low (w : Word) : wordOfBytes (highByte w) (lowByte w) = w := by
  apply BitVec.eq_of_toNat_eq
  rw [toNat_wordOfBytes, toNat_highByte, toNat_lowByte]; omega

/-! ## Fields of a packed word -/

@[simp] theorem op_packNNN (op : Nibble) (nnn : Addr) : opField (packNNN op nnn) = op := by
  apply BitVec.eq_of_toNat_eq; rw [toNat_opField, toNat_packNNN]; omega

@[simp] theorem nnn_packNNN (op : Nibble) (nnn : Addr) : nnnField (packNNN op nnn) = nnn := by
  apply BitVec.eq_of_toNat_eq; rw [toNat_nnnField, toNat_packNNN]; omega

@[simp] theorem op_packXKK (op : Nibble) (x : Reg) (kk : Byte) : opField (packXKK op x kk) = op := by
  apply BitVec.eq_of_toNat_eq; rw [toNat_opField, toNat_packXKK]; omega

@[simp] theorem x_packXKK (op : Nibble) (x : Reg) (kk : Byte) : xField (packXKK op x kk) = x := by
  apply Fin.ext; rw [val_xField, toNat_packXKK]; omega

@[simp] theorem kk_packXKK (op : Nibble) (x : Reg) (kk : Byte) : kkField (packXKK op x kk) = kk := by
  apply BitVec.eq_of_toNat_eq; rw [toNat_kkField, toNat_packXKK]; omega

@[simp] theorem op_packXYN (op : Nibble) (x y : Reg) (n : Nibble) : opField (packXYN op x y n) = op := by
  apply BitVec.eq_of_toNat_eq; rw [toNat_opField, toNat_packXYN]; omega

@[simp] theorem x_packXYN (op : Nibble) (x y : Reg) (n : Nibble) : xField (packXYN op x y n) = x := by
  apply Fin.ext; rw [val_xField, toNat_packXYN]; omega

@[simp] theorem y_packXYN (op : Nibble) (x y : Reg) (n : Nibble) : yField (packXYN op x y n) = y := by
  apply Fin.ext; rw [val_yField, toNat_packXYN]; omega

@[simp] theorem n_packXYN (op : Nibble) (x y : Reg) (n : Nibble) : nField (packXYN op x y n) = n := by
  apply BitVec.eq_of_toNat_eq; rw [toNat_nField, toNat_packXYN]; omega

/-! ## A word is its packed fields -/

theorem packNNN_fields (w : Word) : packNNN (opField w) (nnnField w) = w := by
  apply BitVec.eq_of_toNat_eq; rw [toNat_packNNN, toNat_opField, toNat_nnnField]; omega

theorem packXKK_fields (w : Word) : packXKK (opField w) (xField w) (kkField w) = w := by
  apply BitVec.eq_of_toNat_eq; rw [toNat_packXKK, toNat_opField, val_xField, toNat_kkField]; omega

theorem packXYN_fields (w : Word) : packXYN (opField w) (xField w) (yField w) (nField w) = w := by
  apply BitVec.eq_of_toNat_eq; rw [toNat_packXYN, toNat_opField, val_xField, val_yField, toNat_nField]; omega

/-! ## A word written as a sum is a packed word; `a` is the sum's constant part -/

theorem ofNat_packNNN (op : Nibble) (nnn : Addr) (a : Nat) (h : a = op.toNat * 4096) :
    BitVec.ofNat 16 (a + nnn.toNat) = packNNN op nnn := by
  apply BitVec.eq_of_toNat_eq; rw [toNat_packNNN, BitVec.toNat_ofNat]; omega

theorem ofNat_packXKK (op : Nibble) (x : Reg) (kk : Byte) (a : Nat) (h : a = op.toNat * 4096) :
    BitVec.ofNat 16 (a + 0x100 * x.val + kk.toNat) = packXKK op x kk := by
  apply BitVec.eq_of_toNat_eq; rw [toNat_packXKK, BitVec.toNat_ofNat]; omega

theorem ofNat_packXKK_fixed (op : Nibble) (x : Reg) (kk : Byte) (a : Nat) (h : a = op.toNat * 4096 + kk.toNat) :
    BitVec.ofNat 16 (a + 0x100 * x.val) = packXKK op x kk := by
  apply BitVec.eq_of_toNat_eq; rw [toNat_packXKK, BitVec.toNat_ofNat]; omega

theorem ofNat_packXYN (op : Nibble) (x y : Reg) (n : Nibble) (a : Nat) (h : a = op.toNat * 4096) :
    BitVec.ofNat 16 (a + 0x100 * x.val + 0x10 * y.val + n.toNat) = packXYN op x y n := by
  apply BitVec.eq_of_toNat_eq; rw [toNat_packXYN, BitVec.toNat_ofNat]; omega

theorem ofNat_packXYN_fixed (op : Nibble) (x y : Reg) (n : Nibble) (a : Nat) (h : a = op.toNat * 4096 + n.toNat) :
    BitVec.ofNat 16 (a + 0x100 * x.val + 0x10 * y.val) = packXYN op x y n := by
  apply BitVec.eq_of_toNat_eq; rw [toNat_packXYN, BitVec.toNat_ofNat]; omega

end Sys2Proof
end

