-- ==== Sys2Proof/Laws/Memory.lean ====
section
/-! SUPPORT. Memory: a read after a write, the canonical form, equal reads make equal memories. -/

namespace Sys2Proof.Machine

/-! ## Reads -/

theorem readCells_filter_ne (a a' : Nat) (h : a' ≠ a) (l : List Host.Cell) :
    readCells a' (l.filter (fun c => c.1 ≠ a)) = readCells a' l := by
  induction l with
  | nil => rfl
  | cons c cs ih =>
    by_cases hc : c.1 = a
    · have hne : c.1 ≠ a' := fun e => h (e.symm.trans hc)
      have hf : (c :: cs).filter (fun c => c.1 ≠ a) = cs.filter (fun c => c.1 ≠ a) := by simp [hc]
      rw [hf, ih]; simp [readCells, hne]
    · by_cases hc' : c.1 = a' <;> simp_all [readCells]

theorem readCells_filter_self (a : Nat) (l : List Host.Cell) :
    readCells a (l.filter (fun c => c.1 ≠ a)) = Memory.unlisted := by
  induction l with
  | nil => rfl
  | cons c cs ih => by_cases hc : c.1 = a <;> simp_all [readCells]

theorem readCells_insertCell (a a' : Nat) (b : Byte) (l : List Host.Cell) (h : ∀ c ∈ l, c.1 ≠ a) :
    readCells a' (insertCell a b l) = if a' = a then b else readCells a' l := by
  induction l with
  | nil => simp [insertCell, readCells, eq_comm]
  | cons c cs ih =>
    have hc : c.1 ≠ a := h c (by simp)
    have ih := ih fun d hd => h d (by simp [hd])
    simp only [insertCell]
    split
    · by_cases e : a' = a
      · subst e; simp [readCells]
      · have e2 : ¬ a = a' := fun h => e h.symm
        simp [readCells, e, e2]
    · by_cases e : c.1 = a'
      · have : a' ≠ a := fun e' => hc (e.trans e')
        simp [readCells, e, this]
      · simp [readCells, e, ih]

/-- The law of one write: the written byte there, every other address as before. -/
theorem read_write (m : Memory) (a a' : Nat) (b : Byte) :
    (m.write a b).read a' = if a' = a then b else m.read a' := by
  simp only [Memory.write, Memory.read]
  split <;> rename_i hb
  · by_cases e : a' = a
    · subst e; rw [readCells_filter_self]; simp [hb]
    · rw [readCells_filter_ne a a' e]; simp [e]
  · rw [readCells_insertCell]
    · by_cases e : a' = a
      · simp [e]
      · rw [readCells_filter_ne a a' e]
    · simp

@[simp] theorem read_write_self (m : Memory) (a : Nat) (b : Byte) : (m.write a b).read a = b := by
  simp [read_write]

theorem read_write_ne (m : Memory) (a a' : Nat) (b : Byte) (h : a' ≠ a) : (m.write a b).read a' = m.read a' := by
  simp [read_write, h]

/-- The law of consecutive writes. -/
theorem read_writeBytes (bs : List Byte) (m : Memory) (a a' : Nat) :
    (m.writeBytes a bs).read a' = if a ≤ a' then (bs[a' - a]?).getD (m.read a') else m.read a' := by
  induction bs generalizing m a with
  | nil => simp [Memory.writeBytes]
  | cons b bs ih =>
    simp only [Memory.writeBytes, ih, read_write]
    by_cases h1 : a + 1 ≤ a'
    · have e : a' - a = (a' - (a + 1)) + 1 := by omega
      have h2 : a ≤ a' := by omega
      have h3 : a' ≠ a := by omega
      simp [h1, h2, h3, e]
    · by_cases h2 : a = a'
      · subst h2; simp
      · have h3 : ¬ a ≤ a' := by omega
        have h4 : a' ≠ a := by omega
        simp [h1, h3, h4]

theorem read_writeBytes_outside (bs : List Byte) (m : Memory) (a a' : Nat) (h : a' < a ∨ a + bs.length ≤ a') :
    (m.writeBytes a bs).read a' = m.read a' := by
  rw [read_writeBytes]
  split
  · rw [List.getElem?_eq_none (by omega)]; rfl
  · rfl

theorem read_writeBytes_inside (bs : List Byte) (m : Memory) (a k : Nat) (h : k < bs.length) :
    (m.writeBytes a bs).read (a + k) = bs[k] := by
  rw [read_writeBytes]; simp [h]

theorem read_empty (a : Nat) : (Memory.mk []).read a = 0x00 := rfl

/-! ## Bounds -/

theorem get_eq_some_iff (m : Memory) (a : Nat) (b : Byte) : m.get a = some b ↔ a ≤ 0xFFF ∧ m.read a = b := by
  simp [Memory.get, inMemory]

theorem set_eq_some_iff (m m' : Memory) (a : Nat) (b : Byte) :
    m.set a b = some m' ↔ a ≤ 0xFFF ∧ m.write a b = m' := by
  simp [Memory.set, inMemory]

theorem rangeInMemory_iff (base n : Nat) : rangeInMemory base n = true ↔ n = 0 ∨ base + n ≤ 0x1000 := by
  simp only [rangeInMemory, inMemory, Bool.or_eq_true, decide_eq_true_eq]
  omega

/-! ## The canonical form -/

theorem mem_insertCell (a : Nat) (b : Byte) (l : List Host.Cell) (c : Host.Cell) :
    c ∈ insertCell a b l ↔ c = (a, b) ∨ c ∈ l := by
  induction l with
  | nil => simp [insertCell]
  | cons d ds ih =>
    simp only [insertCell]
    split
    · simp
    · simp [ih]; tauto

theorem insertCell_rising (a : Nat) (b : Byte) (l : List Host.Cell) (hl : l.Pairwise (fun c d => c.1 < d.1))
    (h : ∀ c ∈ l, c.1 ≠ a) : (insertCell a b l).Pairwise (fun c d => c.1 < d.1) := by
  induction l with
  | nil => simp [insertCell]
  | cons d ds ih =>
    have hd := List.pairwise_cons.1 hl
    have hda : d.1 ≠ a := h d (by simp)
    simp only [insertCell]
    split
    · rename_i hlt
      refine List.pairwise_cons.2 ⟨fun c hc => ?_, hl⟩
      rcases List.mem_cons.1 hc with rfl | hc
      · exact hlt
      · exact lt_trans hlt (hd.1 c hc)
    · rename_i hlt
      refine List.pairwise_cons.2 ⟨fun c hc => ?_, ih hd.2 fun c hc => h c (by simp [hc])⟩
      rcases (mem_insertCell a b ds c).1 hc with rfl | hc
      · exact lt_of_le_of_ne (not_lt.1 hlt) hda
      · exact hd.1 c hc

/-- A write in the address space keeps the canonical form. -/
theorem write_wf (m : Memory) (a : Nat) (b : Byte) (hm : m.wf) (ha : a < Memory.size) : (m.write a b).wf := by
  have hp : (m.cells.filter (fun c => c.1 ≠ a)).Pairwise (fun c d => c.1 < d.1) := hm.1.filter _
  have hq : ∀ c ∈ m.cells.filter (fun c => c.1 ≠ a), c.1 < Memory.size ∧ c.2 ≠ Memory.unlisted :=
    fun c hc => hm.2 c (List.mem_filter.1 hc).1
  unfold Memory.write
  split
  · exact ⟨hp, hq⟩
  · rename_i hb
    refine ⟨insertCell_rising a b _ hp (by simp), fun c hc => ?_⟩
    rcases (mem_insertCell a b _ c).1 hc with rfl | hc
    · exact ⟨ha, hb⟩
    · exact hq c hc

theorem writeBytes_wf (bs : List Byte) (m : Memory) (a : Nat) (hm : m.wf) (h : a + bs.length ≤ Memory.size) :
    (m.writeBytes a bs).wf := by
  induction bs generalizing m a with
  | nil => exact hm
  | cons b bs ih =>
    simp only [List.length_cons] at h
    exact ih _ _ (write_wf m a b hm (by omega)) (by omega)

theorem empty_wf : (Memory.mk []).wf := ⟨List.Pairwise.nil, by simp⟩

/-- In a rising list an entry is what its address reads as. -/
theorem readCells_of_mem (l : List Host.Cell) (hl : l.Pairwise (fun c d => c.1 < d.1)) (c : Host.Cell) (hc : c ∈ l) :
    readCells c.1 l = c.2 := by
  induction l with
  | nil => simp at hc
  | cons d ds ih =>
    have hd := List.pairwise_cons.1 hl
    rcases List.mem_cons.1 hc with rfl | hc
    · simp [readCells]
    · have : d.1 ≠ c.1 := Nat.ne_of_lt (hd.1 c hc)
      simp [readCells, this, ih hd.2 hc]

theorem mem_of_readCells (l : List Host.Cell) (a : Nat) (h : readCells a l ≠ Memory.unlisted) :
    (a, readCells a l) ∈ l := by
  induction l with
  | nil => exact absurd rfl h
  | cons d ds ih =>
    by_cases e : d.1 = a
    · subst e; simp [readCells]
    · simp only [readCells, e, if_false] at h ⊢
      exact List.mem_cons_of_mem _ (ih h)

/-! ## Words -/

theorem placeWord_wf (m : Memory) (a : Nat) (w : Word) (hm : m.wf) : (m.placeWord a w).wf := by
  unfold Memory.placeWord
  split
  · rename_i h
    have := (rangeInMemory_iff a 2).1 h
    exact writeBytes_wf _ _ _ hm (by simp [Memory.size]; omega)
  · exact hm

/-- A placed word is the word a fetch there reads. -/
theorem readWord_placeWord (m : Memory) (a : Nat) (w : Word) (h : a ≤ 0xFFE) : (m.placeWord a w).readWord a = w := by
  have hr : rangeInMemory a 2 = true := (rangeInMemory_iff a 2).2 (by omega)
  simp [Memory.placeWord, hr, Memory.readWord, read_writeBytes, wordOfBytes_high_low]

end Sys2Proof.Machine
end

