-- ==== Sys2Proof/Laws/Screen.lean ====
section
/-! SUPPORT. The screen buffer (43_display.md R260): what a toggle does to every pixel, and the canonical form. -/

namespace Sys2Proof.Machine

theorem mem_insertPixel (p q : Pixel) (l : List Pixel) : q ∈ insertPixel p l ↔ q = p ∨ q ∈ l := by
  induction l with
  | nil => simp [insertPixel]
  | cons d ds ih =>
    simp only [insertPixel]
    split
    · simp
    · simp [ih]; tauto

/-- A toggle flips its pixel and no other. -/
theorem getPixel_toggle (sc : Screen) (p q : Pixel) :
    (sc.toggle p).getPixel q = if q = p then !sc.getPixel p else sc.getPixel q := by
  simp only [Screen.toggle, Screen.getPixel]
  by_cases hp : p ∈ sc.lit <;> by_cases e : q = p <;> simp_all [mem_insertPixel]

@[simp] theorem getPixel_blank (p : Pixel) : Screen.blank.getPixel p = false := rfl

/-! ## The canonical form -/

theorem insertPixel_sorted (p : Pixel) (l : List Pixel) (hl : l.Pairwise Pixel.Before) (hp : p ∉ l) :
    (insertPixel p l).Pairwise Pixel.Before := by
  induction l with
  | nil => simp [insertPixel]
  | cons d ds ih =>
    have hd := List.pairwise_cons.1 hl
    have hne : p ≠ d := fun e => hp (by simp [e])
    simp only [insertPixel]
    split
    · rename_i hlt
      refine List.pairwise_cons.2 ⟨fun q hq => ?_, hl⟩
      rcases List.mem_cons.1 hq with rfl | hq
      · exact hlt
      · have := hd.1 q hq; unfold Pixel.Before at *; omega
    · rename_i hlt
      refine List.pairwise_cons.2 ⟨fun q hq => ?_, ih hd.2 fun h => hp (by simp [h])⟩
      rcases (mem_insertPixel p q ds).1 hq with rfl | hq
      · have : q.px ≠ d.px ∨ q.py ≠ d.py := by
          by_contra h
          simp only [not_or, not_not] at h
          exact hne (by cases q; cases d; simp_all)
        unfold Pixel.Before at *; omega
      · exact hd.1 q hq

theorem toggle_wf (c : Config) (sc : Screen) (p : Pixel) (h : sc.wf c) (hx : p.px < c.width) (hy : p.py < c.height) :
    (sc.toggle p).wf c := by
  unfold Screen.toggle Screen.wf
  split
  · exact ⟨h.1.filter _, fun q hq => h.2 q (List.mem_filter.1 hq).1⟩
  · rename_i hp
    refine ⟨insertPixel_sorted p _ h.1 (by simpa [Screen.getPixel] using hp), fun q hq => ?_⟩
    rcases (mem_insertPixel p q _).1 hq with rfl | hq
    · exact ⟨hx, hy⟩
    · exact h.2 q hq

theorem blank_wf (c : Config) : Screen.blank.wf c := ⟨List.Pairwise.nil, by simp [Screen.blank]⟩

theorem plotBit_wf (c : Config) (hc : c.wf) (ox oy : Byte) (r : Nat) (row : Byte) (acc : Screen × Bool) (k : Nat)
    (h : acc.1.wf c) : (plotBit c ox oy r row acc k).1.wf c := by
  unfold plotBit
  split
  · exact toggle_wf c _ _ h (Nat.mod_lt _ hc.1) (Nat.mod_lt _ hc.2)
  · exact h

theorem plotRow_wf (c : Config) (hc : c.wf) (ox oy : Byte) (rows : Nat → Byte) (acc : Screen × Bool) (r : Nat)
    (h : acc.1.wf c) : (plotRow c ox oy rows acc r).1.wf c := by
  unfold plotRow
  generalize List.range 8 = l
  induction l generalizing acc with
  | nil => exact h
  | cons k ks ih => exact ih _ (plotBit_wf c hc ox oy r _ acc k h)

/-- A sprite stays inside the screen. -/
theorem plotSprite_wf (c : Config) (hc : c.wf) (ox oy : Byte) (rows : Nat → Byte) (n : Nat) (sc : Screen)
    (h : sc.wf c) : (plotSprite c ox oy rows n sc).1.wf c := by
  unfold plotSprite
  have aux : ∀ (l : List Nat) (acc : Screen × Bool), acc.1.wf c → (l.foldl (plotRow c ox oy rows) acc).1.wf c := by
    intro l
    induction l with
    | nil => exact fun acc h => h
    | cons r rs ih => exact fun acc h => ih _ (plotRow_wf c hc ox oy rows acc r h)
  exact aux _ _ h

/-! ## A sprite as one run of numbered columns: number k is row k / 8, column k % 8 -/

/-- How many of the first m numbers have a set bit that lands on p. -/
def landings (bit : Nat → Bool) (at' : Nat → Pixel) (m : Nat) (p : Pixel) : Nat :=
  ((List.range m).filter fun j => bit j && decide (at' j = p)).length

theorem landings_succ (bit : Nat → Bool) (at' : Nat → Pixel) (m : Nat) (p : Pixel) :
    landings bit at' (m + 1) p = landings bit at' m p + if bit m && decide (at' m = p) then 1 else 0 := by
  unfold landings
  rw [List.range_succ, List.filter_append, List.length_append]
  congr 1
  by_cases h : (bit m && decide (at' m = p)) = true <;> simp [h]

/-- Plot the first m numbers. -/
def plotNumbers (bit : Nat → Bool) (at' : Nat → Pixel) (m : Nat) (sc : Screen) : Screen × Bool :=
  (List.range m).foldl
    (fun acc k => if bit k then ((acc.1.xor (at' k)).1, acc.2 || (acc.1.xor (at' k)).2) else acc) (sc, false)

theorem plotNumbers_succ (bit : Nat → Bool) (at' : Nat → Pixel) (m : Nat) (sc : Screen) :
    plotNumbers bit at' (m + 1) sc =
      if bit m then
        (((plotNumbers bit at' m sc).1.xor (at' m)).1,
          (plotNumbers bit at' m sc).2 || ((plotNumbers bit at' m sc).1.xor (at' m)).2)
      else plotNumbers bit at' m sc := by
  simp [plotNumbers, List.range_succ, List.foldl_append]

/-- Each pixel is toggled as often as set bits land on it. -/
theorem getPixel_plotNumbers (bit : Nat → Bool) (at' : Nat → Pixel) (m : Nat) (sc : Screen) (p : Pixel) :
    (plotNumbers bit at' m sc).1.getPixel p = (sc.getPixel p ^^ (landings bit at' m p % 2 == 1)) := by
  induction m with
  | zero => simp [plotNumbers, landings]
  | succ m ih =>
    rw [plotNumbers_succ, landings_succ]
    by_cases hb : bit m
    · by_cases e : at' m = p
      · have hodd : ((landings bit at' m p + 1) % 2 == 1) = !(landings bit at' m p % 2 == 1) := by
          rw [Bool.eq_not, Ne, Bool.beq_eq_decide_eq, Bool.beq_eq_decide_eq, decide_eq_decide]; omega
        subst e
        simp [hb, Screen.xor, getPixel_toggle, ih, hodd]
      · have e' : ¬ p = at' m := fun h => e h.symm
        simp [hb, Screen.xor, getPixel_toggle, e, e', ih]
    · simp [hb, ih]

/-- A collision: some set bit lands on a pixel that is on at its turn. -/
theorem hit_plotNumbers (bit : Nat → Bool) (at' : Nat → Pixel) (m : Nat) (sc : Screen) :
    (plotNumbers bit at' m sc).2 = true ↔
      ∃ k, k < m ∧ bit k = true ∧
        (sc.getPixel (at' k) ^^ (landings bit at' k (at' k) % 2 == 1)) = true := by
  induction m with
  | zero => simp [plotNumbers]
  | succ m ih =>
    rw [plotNumbers_succ]
    by_cases hb : bit m
    · simp only [hb, if_true, Bool.or_eq_true, ih, Screen.xor, getPixel_plotNumbers]
      constructor
      · rintro (⟨k, hk, h⟩ | h)
        · exact ⟨k, by omega, h⟩
        · exact ⟨m, by omega, hb, h⟩
      · rintro ⟨k, hk, h1, h2⟩
        by_cases e : k = m
        · subst e; exact .inr h2
        · exact .inl ⟨k, by omega, h1, h2⟩
    · have hb' : bit m = false := by simpa using hb
      simp only [hb', Bool.false_eq_true, if_false, ih]
      constructor
      · rintro ⟨k, hk, h⟩; exact ⟨k, by omega, h⟩
      · rintro ⟨k, hk, h1, h2⟩
        have : k ≠ m := fun e => hb (e ▸ h1)
        exact ⟨k, by omega, h1, h2⟩

/-- Row by row and column by column is one run of numbers. -/
theorem plotSprite_eq_plotNumbers (c : Config) (ox oy : Byte) (rows : Nat → Byte) (n : Nat) (sc : Screen) :
    plotSprite c ox oy rows n sc =
      plotNumbers (fun k => (rows (k / 8)).getLsbD (7 - k % 8)) (fun k => spritePixel c ox oy (k / 8) (k % 8))
        (8 * n) sc := by
  induction n with
  | zero => rfl
  | succ n ih =>
    unfold plotSprite at ih ⊢
    unfold plotNumbers at ih ⊢
    rw [List.range_succ, List.foldl_append, ih, Nat.mul_succ, List.range_add, List.foldl_append, List.foldl_map]
    simp only [List.foldl_cons, List.foldl_nil, plotRow]
    refine List.foldl_ext _ _ _ fun acc k hk => ?_
    have hk : k < 8 := by simpa using hk
    have h1 : (8 * n + k) / 8 = n := by omega
    have h2 : (8 * n + k) % 8 = k := by omega
    simp [plotBit, h1, h2]

end Sys2Proof.Machine
end

