-- ==== Sys2Proof/Laws/State.lean ====
section
/-! SUPPORT. One lemma for each field of `State` under each named update: what the field holds after it. -/

namespace Sys2Proof.Machine

variable (s : State)

@[simp] theorem setPc_cfg (a : Word) : (s.setPc a).cfg = s.cfg := rfl
@[simp] theorem setPc_v (a : Word) : (s.setPc a).v = s.v := rfl
@[simp] theorem setPc_index (a : Word) : (s.setPc a).index = s.index := rfl
@[simp] theorem setPc_pc (a : Word) : (s.setPc a).pc = a := rfl
@[simp] theorem setPc_sp (a : Word) : (s.setPc a).sp = s.sp := rfl
@[simp] theorem setPc_stack (a : Word) : (s.setPc a).stack = s.stack := rfl
@[simp] theorem setPc_dt (a : Word) : (s.setPc a).dt = s.dt := rfl
@[simp] theorem setPc_st (a : Word) : (s.setPc a).st = s.st := rfl
@[simp] theorem setPc_mem (a : Word) : (s.setPc a).mem = s.mem := rfl
@[simp] theorem setPc_screen (a : Word) : (s.setPc a).screen = s.screen := rfl
@[simp] theorem setPc_keys (a : Word) : (s.setPc a).keys = s.keys := rfl
@[simp] theorem setPc_run (a : Word) : (s.setPc a).run = s.run := rfl
@[simp] theorem setPc_waitX (a : Word) : (s.setPc a).waitX = s.waitX := rfl
@[simp] theorem setPc_redraw (a : Word) : (s.setPc a).redraw = s.redraw := rfl
@[simp] theorem setPc_fault (a : Word) : (s.setPc a).fault = s.fault := rfl
@[simp] theorem setPc_draws (a : Word) : (s.setPc a).draws = s.draws := rfl
@[simp] theorem setPc_events (a : Word) : (s.setPc a).events = s.events := rfl
@[simp] theorem setPc_getV (a : Word) (j : Reg) : (s.setPc a).getV j = s.getV j := rfl

@[simp] theorem advance_cfg : (s.advance).cfg = s.cfg := rfl
@[simp] theorem advance_v : (s.advance).v = s.v := rfl
@[simp] theorem advance_index : (s.advance).index = s.index := rfl
@[simp] theorem advance_pc : (s.advance).pc = s.pc + 2 := rfl
@[simp] theorem advance_sp : (s.advance).sp = s.sp := rfl
@[simp] theorem advance_stack : (s.advance).stack = s.stack := rfl
@[simp] theorem advance_dt : (s.advance).dt = s.dt := rfl
@[simp] theorem advance_st : (s.advance).st = s.st := rfl
@[simp] theorem advance_mem : (s.advance).mem = s.mem := rfl
@[simp] theorem advance_screen : (s.advance).screen = s.screen := rfl
@[simp] theorem advance_keys : (s.advance).keys = s.keys := rfl
@[simp] theorem advance_run : (s.advance).run = s.run := rfl
@[simp] theorem advance_waitX : (s.advance).waitX = s.waitX := rfl
@[simp] theorem advance_redraw : (s.advance).redraw = s.redraw := rfl
@[simp] theorem advance_fault : (s.advance).fault = s.fault := rfl
@[simp] theorem advance_draws : (s.advance).draws = s.draws := rfl
@[simp] theorem advance_events : (s.advance).events = s.events := rfl
@[simp] theorem advance_getV (j : Reg) : (s.advance).getV j = s.getV j := rfl

@[simp] theorem skipIf_cfg (c : Bool) : (s.skipIf c).cfg = s.cfg := by cases c <;> rfl
@[simp] theorem skipIf_v (c : Bool) : (s.skipIf c).v = s.v := by cases c <;> rfl
@[simp] theorem skipIf_index (c : Bool) : (s.skipIf c).index = s.index := by cases c <;> rfl
@[simp] theorem skipIf_pc (c : Bool) : (s.skipIf c).pc = if c then s.pc + 2 else s.pc := by cases c <;> rfl
@[simp] theorem skipIf_sp (c : Bool) : (s.skipIf c).sp = s.sp := by cases c <;> rfl
@[simp] theorem skipIf_stack (c : Bool) : (s.skipIf c).stack = s.stack := by cases c <;> rfl
@[simp] theorem skipIf_dt (c : Bool) : (s.skipIf c).dt = s.dt := by cases c <;> rfl
@[simp] theorem skipIf_st (c : Bool) : (s.skipIf c).st = s.st := by cases c <;> rfl
@[simp] theorem skipIf_mem (c : Bool) : (s.skipIf c).mem = s.mem := by cases c <;> rfl
@[simp] theorem skipIf_screen (c : Bool) : (s.skipIf c).screen = s.screen := by cases c <;> rfl
@[simp] theorem skipIf_keys (c : Bool) : (s.skipIf c).keys = s.keys := by cases c <;> rfl
@[simp] theorem skipIf_run (c : Bool) : (s.skipIf c).run = s.run := by cases c <;> rfl
@[simp] theorem skipIf_waitX (c : Bool) : (s.skipIf c).waitX = s.waitX := by cases c <;> rfl
@[simp] theorem skipIf_redraw (c : Bool) : (s.skipIf c).redraw = s.redraw := by cases c <;> rfl
@[simp] theorem skipIf_fault (c : Bool) : (s.skipIf c).fault = s.fault := by cases c <;> rfl
@[simp] theorem skipIf_draws (c : Bool) : (s.skipIf c).draws = s.draws := by cases c <;> rfl
@[simp] theorem skipIf_events (c : Bool) : (s.skipIf c).events = s.events := by cases c <;> rfl
@[simp] theorem skipIf_getV (c : Bool) (j : Reg) : (s.skipIf c).getV j = s.getV j := by cases c <;> rfl

@[simp] theorem setV_cfg (x : Reg) (b : Byte) : (s.setV x b).cfg = s.cfg := rfl
@[simp] theorem setV_v (x : Reg) (b : Byte) : (s.setV x b).v = s.v.set x b := rfl
@[simp] theorem setV_index (x : Reg) (b : Byte) : (s.setV x b).index = s.index := rfl
@[simp] theorem setV_pc (x : Reg) (b : Byte) : (s.setV x b).pc = s.pc := rfl
@[simp] theorem setV_sp (x : Reg) (b : Byte) : (s.setV x b).sp = s.sp := rfl
@[simp] theorem setV_stack (x : Reg) (b : Byte) : (s.setV x b).stack = s.stack := rfl
@[simp] theorem setV_dt (x : Reg) (b : Byte) : (s.setV x b).dt = s.dt := rfl
@[simp] theorem setV_st (x : Reg) (b : Byte) : (s.setV x b).st = s.st := rfl
@[simp] theorem setV_mem (x : Reg) (b : Byte) : (s.setV x b).mem = s.mem := rfl
@[simp] theorem setV_screen (x : Reg) (b : Byte) : (s.setV x b).screen = s.screen := rfl
@[simp] theorem setV_keys (x : Reg) (b : Byte) : (s.setV x b).keys = s.keys := rfl
@[simp] theorem setV_run (x : Reg) (b : Byte) : (s.setV x b).run = s.run := rfl
@[simp] theorem setV_waitX (x : Reg) (b : Byte) : (s.setV x b).waitX = s.waitX := rfl
@[simp] theorem setV_redraw (x : Reg) (b : Byte) : (s.setV x b).redraw = s.redraw := rfl
@[simp] theorem setV_fault (x : Reg) (b : Byte) : (s.setV x b).fault = s.fault := rfl
@[simp] theorem setV_draws (x : Reg) (b : Byte) : (s.setV x b).draws = s.draws := rfl
@[simp] theorem setV_events (x : Reg) (b : Byte) : (s.setV x b).events = s.events := rfl

@[simp] theorem setFlag_cfg (c : Bool) : (s.setFlag c).cfg = s.cfg := rfl
@[simp] theorem setFlag_v (c : Bool) : (s.setFlag c).v = s.v.set flagReg (flagByte c) := rfl
@[simp] theorem setFlag_index (c : Bool) : (s.setFlag c).index = s.index := rfl
@[simp] theorem setFlag_pc (c : Bool) : (s.setFlag c).pc = s.pc := rfl
@[simp] theorem setFlag_sp (c : Bool) : (s.setFlag c).sp = s.sp := rfl
@[simp] theorem setFlag_stack (c : Bool) : (s.setFlag c).stack = s.stack := rfl
@[simp] theorem setFlag_dt (c : Bool) : (s.setFlag c).dt = s.dt := rfl
@[simp] theorem setFlag_st (c : Bool) : (s.setFlag c).st = s.st := rfl
@[simp] theorem setFlag_mem (c : Bool) : (s.setFlag c).mem = s.mem := rfl
@[simp] theorem setFlag_screen (c : Bool) : (s.setFlag c).screen = s.screen := rfl
@[simp] theorem setFlag_keys (c : Bool) : (s.setFlag c).keys = s.keys := rfl
@[simp] theorem setFlag_run (c : Bool) : (s.setFlag c).run = s.run := rfl
@[simp] theorem setFlag_waitX (c : Bool) : (s.setFlag c).waitX = s.waitX := rfl
@[simp] theorem setFlag_redraw (c : Bool) : (s.setFlag c).redraw = s.redraw := rfl
@[simp] theorem setFlag_fault (c : Bool) : (s.setFlag c).fault = s.fault := rfl
@[simp] theorem setFlag_draws (c : Bool) : (s.setFlag c).draws = s.draws := rfl
@[simp] theorem setFlag_events (c : Bool) : (s.setFlag c).events = s.events := rfl

@[simp] theorem setVFlag_cfg (x : Reg) (b : Byte) (c : Bool) : (s.setVFlag x b c).cfg = s.cfg := rfl
@[simp] theorem setVFlag_v (x : Reg) (b : Byte) (c : Bool) : (s.setVFlag x b c).v = (s.v.set x b).set flagReg (flagByte c) := rfl
@[simp] theorem setVFlag_index (x : Reg) (b : Byte) (c : Bool) : (s.setVFlag x b c).index = s.index := rfl
@[simp] theorem setVFlag_pc (x : Reg) (b : Byte) (c : Bool) : (s.setVFlag x b c).pc = s.pc := rfl
@[simp] theorem setVFlag_sp (x : Reg) (b : Byte) (c : Bool) : (s.setVFlag x b c).sp = s.sp := rfl
@[simp] theorem setVFlag_stack (x : Reg) (b : Byte) (c : Bool) : (s.setVFlag x b c).stack = s.stack := rfl
@[simp] theorem setVFlag_dt (x : Reg) (b : Byte) (c : Bool) : (s.setVFlag x b c).dt = s.dt := rfl
@[simp] theorem setVFlag_st (x : Reg) (b : Byte) (c : Bool) : (s.setVFlag x b c).st = s.st := rfl
@[simp] theorem setVFlag_mem (x : Reg) (b : Byte) (c : Bool) : (s.setVFlag x b c).mem = s.mem := rfl
@[simp] theorem setVFlag_screen (x : Reg) (b : Byte) (c : Bool) : (s.setVFlag x b c).screen = s.screen := rfl
@[simp] theorem setVFlag_keys (x : Reg) (b : Byte) (c : Bool) : (s.setVFlag x b c).keys = s.keys := rfl
@[simp] theorem setVFlag_run (x : Reg) (b : Byte) (c : Bool) : (s.setVFlag x b c).run = s.run := rfl
@[simp] theorem setVFlag_waitX (x : Reg) (b : Byte) (c : Bool) : (s.setVFlag x b c).waitX = s.waitX := rfl
@[simp] theorem setVFlag_redraw (x : Reg) (b : Byte) (c : Bool) : (s.setVFlag x b c).redraw = s.redraw := rfl
@[simp] theorem setVFlag_fault (x : Reg) (b : Byte) (c : Bool) : (s.setVFlag x b c).fault = s.fault := rfl
@[simp] theorem setVFlag_draws (x : Reg) (b : Byte) (c : Bool) : (s.setVFlag x b c).draws = s.draws := rfl
@[simp] theorem setVFlag_events (x : Reg) (b : Byte) (c : Bool) : (s.setVFlag x b c).events = s.events := rfl

@[simp] theorem setIndex_cfg (a : Word) : (s.setIndex a).cfg = s.cfg := rfl
@[simp] theorem setIndex_v (a : Word) : (s.setIndex a).v = s.v := rfl
@[simp] theorem setIndex_index (a : Word) : (s.setIndex a).index = a &&& 0xFFF := rfl
@[simp] theorem setIndex_pc (a : Word) : (s.setIndex a).pc = s.pc := rfl
@[simp] theorem setIndex_sp (a : Word) : (s.setIndex a).sp = s.sp := rfl
@[simp] theorem setIndex_stack (a : Word) : (s.setIndex a).stack = s.stack := rfl
@[simp] theorem setIndex_dt (a : Word) : (s.setIndex a).dt = s.dt := rfl
@[simp] theorem setIndex_st (a : Word) : (s.setIndex a).st = s.st := rfl
@[simp] theorem setIndex_mem (a : Word) : (s.setIndex a).mem = s.mem := rfl
@[simp] theorem setIndex_screen (a : Word) : (s.setIndex a).screen = s.screen := rfl
@[simp] theorem setIndex_keys (a : Word) : (s.setIndex a).keys = s.keys := rfl
@[simp] theorem setIndex_run (a : Word) : (s.setIndex a).run = s.run := rfl
@[simp] theorem setIndex_waitX (a : Word) : (s.setIndex a).waitX = s.waitX := rfl
@[simp] theorem setIndex_redraw (a : Word) : (s.setIndex a).redraw = s.redraw := rfl
@[simp] theorem setIndex_fault (a : Word) : (s.setIndex a).fault = s.fault := rfl
@[simp] theorem setIndex_draws (a : Word) : (s.setIndex a).draws = s.draws := rfl
@[simp] theorem setIndex_events (a : Word) : (s.setIndex a).events = s.events := rfl
@[simp] theorem setIndex_getV (a : Word) (j : Reg) : (s.setIndex a).getV j = s.getV j := rfl

@[simp] theorem loadRegs_cfg (x : Reg) : (s.loadRegs x).cfg = s.cfg := rfl
@[simp] theorem loadRegs_index (x : Reg) : (s.loadRegs x).index = s.index := rfl
@[simp] theorem loadRegs_pc (x : Reg) : (s.loadRegs x).pc = s.pc := rfl
@[simp] theorem loadRegs_sp (x : Reg) : (s.loadRegs x).sp = s.sp := rfl
@[simp] theorem loadRegs_stack (x : Reg) : (s.loadRegs x).stack = s.stack := rfl
@[simp] theorem loadRegs_dt (x : Reg) : (s.loadRegs x).dt = s.dt := rfl
@[simp] theorem loadRegs_st (x : Reg) : (s.loadRegs x).st = s.st := rfl
@[simp] theorem loadRegs_mem (x : Reg) : (s.loadRegs x).mem = s.mem := rfl
@[simp] theorem loadRegs_screen (x : Reg) : (s.loadRegs x).screen = s.screen := rfl
@[simp] theorem loadRegs_keys (x : Reg) : (s.loadRegs x).keys = s.keys := rfl
@[simp] theorem loadRegs_run (x : Reg) : (s.loadRegs x).run = s.run := rfl
@[simp] theorem loadRegs_waitX (x : Reg) : (s.loadRegs x).waitX = s.waitX := rfl
@[simp] theorem loadRegs_redraw (x : Reg) : (s.loadRegs x).redraw = s.redraw := rfl
@[simp] theorem loadRegs_fault (x : Reg) : (s.loadRegs x).fault = s.fault := rfl
@[simp] theorem loadRegs_draws (x : Reg) : (s.loadRegs x).draws = s.draws := rfl
@[simp] theorem loadRegs_events (x : Reg) : (s.loadRegs x).events = s.events := rfl

@[simp] theorem setMem_cfg (m : Memory) : (s.setMem m).cfg = s.cfg := rfl
@[simp] theorem setMem_v (m : Memory) : (s.setMem m).v = s.v := rfl
@[simp] theorem setMem_index (m : Memory) : (s.setMem m).index = s.index := rfl
@[simp] theorem setMem_pc (m : Memory) : (s.setMem m).pc = s.pc := rfl
@[simp] theorem setMem_sp (m : Memory) : (s.setMem m).sp = s.sp := rfl
@[simp] theorem setMem_stack (m : Memory) : (s.setMem m).stack = s.stack := rfl
@[simp] theorem setMem_dt (m : Memory) : (s.setMem m).dt = s.dt := rfl
@[simp] theorem setMem_st (m : Memory) : (s.setMem m).st = s.st := rfl
@[simp] theorem setMem_mem (m : Memory) : (s.setMem m).mem = m := rfl
@[simp] theorem setMem_screen (m : Memory) : (s.setMem m).screen = s.screen := rfl
@[simp] theorem setMem_keys (m : Memory) : (s.setMem m).keys = s.keys := rfl
@[simp] theorem setMem_run (m : Memory) : (s.setMem m).run = s.run := rfl
@[simp] theorem setMem_waitX (m : Memory) : (s.setMem m).waitX = s.waitX := rfl
@[simp] theorem setMem_redraw (m : Memory) : (s.setMem m).redraw = s.redraw := rfl
@[simp] theorem setMem_fault (m : Memory) : (s.setMem m).fault = s.fault := rfl
@[simp] theorem setMem_draws (m : Memory) : (s.setMem m).draws = s.draws := rfl
@[simp] theorem setMem_events (m : Memory) : (s.setMem m).events = s.events := rfl
@[simp] theorem setMem_getV (m : Memory) (j : Reg) : (s.setMem m).getV j = s.getV j := rfl

@[simp] theorem show_cfg (sc : Screen) : (s.show sc).cfg = s.cfg := rfl
@[simp] theorem show_v (sc : Screen) : (s.show sc).v = s.v := rfl
@[simp] theorem show_index (sc : Screen) : (s.show sc).index = s.index := rfl
@[simp] theorem show_pc (sc : Screen) : (s.show sc).pc = s.pc := rfl
@[simp] theorem show_sp (sc : Screen) : (s.show sc).sp = s.sp := rfl
@[simp] theorem show_stack (sc : Screen) : (s.show sc).stack = s.stack := rfl
@[simp] theorem show_dt (sc : Screen) : (s.show sc).dt = s.dt := rfl
@[simp] theorem show_st (sc : Screen) : (s.show sc).st = s.st := rfl
@[simp] theorem show_mem (sc : Screen) : (s.show sc).mem = s.mem := rfl
@[simp] theorem show_screen (sc : Screen) : (s.show sc).screen = sc := rfl
@[simp] theorem show_keys (sc : Screen) : (s.show sc).keys = s.keys := rfl
@[simp] theorem show_run (sc : Screen) : (s.show sc).run = s.run := rfl
@[simp] theorem show_waitX (sc : Screen) : (s.show sc).waitX = s.waitX := rfl
@[simp] theorem show_redraw (sc : Screen) : (s.show sc).redraw = true := rfl
@[simp] theorem show_fault (sc : Screen) : (s.show sc).fault = s.fault := rfl
@[simp] theorem show_draws (sc : Screen) : (s.show sc).draws = s.draws := rfl
@[simp] theorem show_events (sc : Screen) : (s.show sc).events = s.events := rfl
@[simp] theorem show_getV (sc : Screen) (j : Reg) : (s.show sc).getV j = s.getV j := rfl

@[simp] theorem setDelay_cfg (b : Byte) : (s.setDelay b).cfg = s.cfg := rfl
@[simp] theorem setDelay_v (b : Byte) : (s.setDelay b).v = s.v := rfl
@[simp] theorem setDelay_index (b : Byte) : (s.setDelay b).index = s.index := rfl
@[simp] theorem setDelay_pc (b : Byte) : (s.setDelay b).pc = s.pc := rfl
@[simp] theorem setDelay_sp (b : Byte) : (s.setDelay b).sp = s.sp := rfl
@[simp] theorem setDelay_stack (b : Byte) : (s.setDelay b).stack = s.stack := rfl
@[simp] theorem setDelay_dt (b : Byte) : (s.setDelay b).dt = b := rfl
@[simp] theorem setDelay_st (b : Byte) : (s.setDelay b).st = s.st := rfl
@[simp] theorem setDelay_mem (b : Byte) : (s.setDelay b).mem = s.mem := rfl
@[simp] theorem setDelay_screen (b : Byte) : (s.setDelay b).screen = s.screen := rfl
@[simp] theorem setDelay_keys (b : Byte) : (s.setDelay b).keys = s.keys := rfl
@[simp] theorem setDelay_run (b : Byte) : (s.setDelay b).run = s.run := rfl
@[simp] theorem setDelay_waitX (b : Byte) : (s.setDelay b).waitX = s.waitX := rfl
@[simp] theorem setDelay_redraw (b : Byte) : (s.setDelay b).redraw = s.redraw := rfl
@[simp] theorem setDelay_fault (b : Byte) : (s.setDelay b).fault = s.fault := rfl
@[simp] theorem setDelay_draws (b : Byte) : (s.setDelay b).draws = s.draws := rfl
@[simp] theorem setDelay_events (b : Byte) : (s.setDelay b).events = s.events := rfl
@[simp] theorem setDelay_getV (b : Byte) (j : Reg) : (s.setDelay b).getV j = s.getV j := rfl

@[simp] theorem setSound_cfg (b : Byte) : (s.setSound b).cfg = s.cfg := rfl
@[simp] theorem setSound_v (b : Byte) : (s.setSound b).v = s.v := rfl
@[simp] theorem setSound_index (b : Byte) : (s.setSound b).index = s.index := rfl
@[simp] theorem setSound_pc (b : Byte) : (s.setSound b).pc = s.pc := rfl
@[simp] theorem setSound_sp (b : Byte) : (s.setSound b).sp = s.sp := rfl
@[simp] theorem setSound_stack (b : Byte) : (s.setSound b).stack = s.stack := rfl
@[simp] theorem setSound_dt (b : Byte) : (s.setSound b).dt = s.dt := rfl
@[simp] theorem setSound_st (b : Byte) : (s.setSound b).st = b := rfl
@[simp] theorem setSound_mem (b : Byte) : (s.setSound b).mem = s.mem := rfl
@[simp] theorem setSound_screen (b : Byte) : (s.setSound b).screen = s.screen := rfl
@[simp] theorem setSound_keys (b : Byte) : (s.setSound b).keys = s.keys := rfl
@[simp] theorem setSound_run (b : Byte) : (s.setSound b).run = s.run := rfl
@[simp] theorem setSound_waitX (b : Byte) : (s.setSound b).waitX = s.waitX := rfl
@[simp] theorem setSound_redraw (b : Byte) : (s.setSound b).redraw = s.redraw := rfl
@[simp] theorem setSound_fault (b : Byte) : (s.setSound b).fault = s.fault := rfl
@[simp] theorem setSound_draws (b : Byte) : (s.setSound b).draws = s.draws := rfl
@[simp] theorem setSound_events (b : Byte) : (s.setSound b).events = s.events := rfl
@[simp] theorem setSound_getV (b : Byte) (j : Reg) : (s.setSound b).getV j = s.getV j := rfl

@[simp] theorem emit_cfg (e : SyscallEvent) : (s.emit e).cfg = s.cfg := rfl
@[simp] theorem emit_v (e : SyscallEvent) : (s.emit e).v = s.v := rfl
@[simp] theorem emit_index (e : SyscallEvent) : (s.emit e).index = s.index := rfl
@[simp] theorem emit_pc (e : SyscallEvent) : (s.emit e).pc = s.pc := rfl
@[simp] theorem emit_sp (e : SyscallEvent) : (s.emit e).sp = s.sp := rfl
@[simp] theorem emit_stack (e : SyscallEvent) : (s.emit e).stack = s.stack := rfl
@[simp] theorem emit_dt (e : SyscallEvent) : (s.emit e).dt = s.dt := rfl
@[simp] theorem emit_st (e : SyscallEvent) : (s.emit e).st = s.st := rfl
@[simp] theorem emit_mem (e : SyscallEvent) : (s.emit e).mem = s.mem := rfl
@[simp] theorem emit_screen (e : SyscallEvent) : (s.emit e).screen = s.screen := rfl
@[simp] theorem emit_keys (e : SyscallEvent) : (s.emit e).keys = s.keys := rfl
@[simp] theorem emit_run (e : SyscallEvent) : (s.emit e).run = s.run := rfl
@[simp] theorem emit_waitX (e : SyscallEvent) : (s.emit e).waitX = s.waitX := rfl
@[simp] theorem emit_redraw (e : SyscallEvent) : (s.emit e).redraw = s.redraw := rfl
@[simp] theorem emit_fault (e : SyscallEvent) : (s.emit e).fault = s.fault := rfl
@[simp] theorem emit_draws (e : SyscallEvent) : (s.emit e).draws = s.draws := rfl
@[simp] theorem emit_events (e : SyscallEvent) : (s.emit e).events = s.events ++ [e] := rfl
@[simp] theorem emit_getV (e : SyscallEvent) (j : Reg) : (s.emit e).getV j = s.getV j := rfl

@[simp] theorem drawRandom_cfg (kk : Byte) : (s.drawRandom kk).2.cfg = s.cfg := rfl
@[simp] theorem drawRandom_v (kk : Byte) : (s.drawRandom kk).2.v = s.v := rfl
@[simp] theorem drawRandom_index (kk : Byte) : (s.drawRandom kk).2.index = s.index := rfl
@[simp] theorem drawRandom_pc (kk : Byte) : (s.drawRandom kk).2.pc = s.pc := rfl
@[simp] theorem drawRandom_sp (kk : Byte) : (s.drawRandom kk).2.sp = s.sp := rfl
@[simp] theorem drawRandom_stack (kk : Byte) : (s.drawRandom kk).2.stack = s.stack := rfl
@[simp] theorem drawRandom_dt (kk : Byte) : (s.drawRandom kk).2.dt = s.dt := rfl
@[simp] theorem drawRandom_st (kk : Byte) : (s.drawRandom kk).2.st = s.st := rfl
@[simp] theorem drawRandom_mem (kk : Byte) : (s.drawRandom kk).2.mem = s.mem := rfl
@[simp] theorem drawRandom_screen (kk : Byte) : (s.drawRandom kk).2.screen = s.screen := rfl
@[simp] theorem drawRandom_keys (kk : Byte) : (s.drawRandom kk).2.keys = s.keys := rfl
@[simp] theorem drawRandom_run (kk : Byte) : (s.drawRandom kk).2.run = s.run := rfl
@[simp] theorem drawRandom_waitX (kk : Byte) : (s.drawRandom kk).2.waitX = s.waitX := rfl
@[simp] theorem drawRandom_redraw (kk : Byte) : (s.drawRandom kk).2.redraw = s.redraw := rfl
@[simp] theorem drawRandom_fault (kk : Byte) : (s.drawRandom kk).2.fault = s.fault := rfl
@[simp] theorem drawRandom_draws (kk : Byte) : (s.drawRandom kk).2.draws = s.draws + 1 := rfl
@[simp] theorem drawRandom_events (kk : Byte) : (s.drawRandom kk).2.events = s.events := rfl
@[simp] theorem drawRandom_getV (kk : Byte) (j : Reg) : (s.drawRandom kk).2.getV j = s.getV j := rfl

@[simp] theorem awaitKey_cfg (x : Reg) : (s.awaitKey x).cfg = s.cfg := rfl
@[simp] theorem awaitKey_v (x : Reg) : (s.awaitKey x).v = s.v := rfl
@[simp] theorem awaitKey_index (x : Reg) : (s.awaitKey x).index = s.index := rfl
@[simp] theorem awaitKey_pc (x : Reg) : (s.awaitKey x).pc = s.pc := rfl
@[simp] theorem awaitKey_sp (x : Reg) : (s.awaitKey x).sp = s.sp := rfl
@[simp] theorem awaitKey_stack (x : Reg) : (s.awaitKey x).stack = s.stack := rfl
@[simp] theorem awaitKey_dt (x : Reg) : (s.awaitKey x).dt = s.dt := rfl
@[simp] theorem awaitKey_st (x : Reg) : (s.awaitKey x).st = s.st := rfl
@[simp] theorem awaitKey_mem (x : Reg) : (s.awaitKey x).mem = s.mem := rfl
@[simp] theorem awaitKey_screen (x : Reg) : (s.awaitKey x).screen = s.screen := rfl
@[simp] theorem awaitKey_keys (x : Reg) : (s.awaitKey x).keys = s.keys := rfl
@[simp] theorem awaitKey_run (x : Reg) : (s.awaitKey x).run = .awaitingKey := rfl
@[simp] theorem awaitKey_waitX (x : Reg) : (s.awaitKey x).waitX = x := rfl
@[simp] theorem awaitKey_redraw (x : Reg) : (s.awaitKey x).redraw = s.redraw := rfl
@[simp] theorem awaitKey_fault (x : Reg) : (s.awaitKey x).fault = s.fault := rfl
@[simp] theorem awaitKey_draws (x : Reg) : (s.awaitKey x).draws = s.draws := rfl
@[simp] theorem awaitKey_events (x : Reg) : (s.awaitKey x).events = s.events := rfl
@[simp] theorem awaitKey_getV (x : Reg) (j : Reg) : (s.awaitKey x).getV j = s.getV j := rfl

@[simp] theorem resume_cfg : (s.resume).cfg = s.cfg := rfl
@[simp] theorem resume_v : (s.resume).v = s.v := rfl
@[simp] theorem resume_index : (s.resume).index = s.index := rfl
@[simp] theorem resume_pc : (s.resume).pc = s.pc := rfl
@[simp] theorem resume_sp : (s.resume).sp = s.sp := rfl
@[simp] theorem resume_stack : (s.resume).stack = s.stack := rfl
@[simp] theorem resume_dt : (s.resume).dt = s.dt := rfl
@[simp] theorem resume_st : (s.resume).st = s.st := rfl
@[simp] theorem resume_mem : (s.resume).mem = s.mem := rfl
@[simp] theorem resume_screen : (s.resume).screen = s.screen := rfl
@[simp] theorem resume_keys : (s.resume).keys = s.keys := rfl
@[simp] theorem resume_run : (s.resume).run = .running := rfl
@[simp] theorem resume_waitX : (s.resume).waitX = s.waitX := rfl
@[simp] theorem resume_redraw : (s.resume).redraw = s.redraw := rfl
@[simp] theorem resume_fault : (s.resume).fault = s.fault := rfl
@[simp] theorem resume_draws : (s.resume).draws = s.draws := rfl
@[simp] theorem resume_events : (s.resume).events = s.events := rfl
@[simp] theorem resume_getV (j : Reg) : (s.resume).getV j = s.getV j := rfl

@[simp] theorem raise_cfg (r : FaultRecord) : (s.raise r).cfg = s.cfg := rfl
@[simp] theorem raise_v (r : FaultRecord) : (s.raise r).v = s.v := rfl
@[simp] theorem raise_index (r : FaultRecord) : (s.raise r).index = s.index := rfl
@[simp] theorem raise_pc (r : FaultRecord) : (s.raise r).pc = s.pc := rfl
@[simp] theorem raise_sp (r : FaultRecord) : (s.raise r).sp = s.sp := rfl
@[simp] theorem raise_stack (r : FaultRecord) : (s.raise r).stack = s.stack := rfl
@[simp] theorem raise_dt (r : FaultRecord) : (s.raise r).dt = s.dt := rfl
@[simp] theorem raise_st (r : FaultRecord) : (s.raise r).st = s.st := rfl
@[simp] theorem raise_mem (r : FaultRecord) : (s.raise r).mem = s.mem := rfl
@[simp] theorem raise_screen (r : FaultRecord) : (s.raise r).screen = s.screen := rfl
@[simp] theorem raise_keys (r : FaultRecord) : (s.raise r).keys = s.keys := rfl
@[simp] theorem raise_run (r : FaultRecord) : (s.raise r).run = .faulted := rfl
@[simp] theorem raise_waitX (r : FaultRecord) : (s.raise r).waitX = s.waitX := rfl
@[simp] theorem raise_redraw (r : FaultRecord) : (s.raise r).redraw = s.redraw := rfl
@[simp] theorem raise_fault (r : FaultRecord) : (s.raise r).fault = some r := rfl
@[simp] theorem raise_draws (r : FaultRecord) : (s.raise r).draws = s.draws := rfl
@[simp] theorem raise_events (r : FaultRecord) : (s.raise r).events = s.events := rfl
@[simp] theorem raise_getV (r : FaultRecord) (j : Reg) : (s.raise r).getV j = s.getV j := rfl

/-! ## Registers -/

theorem getV_setV (x j : Reg) (b : Byte) : (s.setV x b).getV j = if j = x then b else s.getV j := by
  unfold State.getV State.setV
  by_cases h : j = x
  · subst h; simp
  · have h' : x.val ≠ j.val := fun e => h (Fin.ext e.symm)
    simp [h, h']

@[simp] theorem getV_setV_self (x : Reg) (b : Byte) : (s.setV x b).getV x = b := by simp [getV_setV]

theorem getV_setV_ne (x j : Reg) (b : Byte) (h : j ≠ x) : (s.setV x b).getV j = s.getV j := by
  simp [getV_setV, h]

theorem getV_setFlag (j : Reg) (c : Bool) :
    (s.setFlag c).getV j = if j = flagReg then flagByte c else s.getV j := getV_setV s flagReg j _

/-- The flag is written last: it wins when x = F. -/
theorem getV_setVFlag (x j : Reg) (b : Byte) (c : Bool) :
    (s.setVFlag x b c).getV j = if j = flagReg then flagByte c else if j = x then b else s.getV j := by
  simp [State.setVFlag, getV_setFlag, getV_setV]

theorem getV_loadRegs (x j : Reg) :
    (s.loadRegs x).getV j = if j ≤ x then s.mem.read (s.ea j.val) else s.getV j := by
  simp [State.loadRegs, State.getV]

end Sys2Proof.Machine
end

