-- ==== Sys2Proof/Laws/Exec.lean ====
section
/-! SUPPORT. What each shared operation can do, said once: the stack, key numbers, the fetch, the poll, the step, and which
parts of the state an instruction may change. -/

namespace Sys2Proof.Machine

/-! ## Stack -/

theorem push_of_lt (s : State) (a : Word) (h : s.sp.val < 16) :
    s.push a = some { s with stack := s.stack.set s.sp.val a h, sp := ⟨s.sp.val + 1, by omega⟩ } := by
  simp [State.push, h]

theorem push_of_full (s : State) (a : Word) (h : s.sp.val = 16) : s.push a = none := by
  simp [State.push, h]

theorem pop_of_succ (s : State) (k : Nat) (hk : k < 16) (h : s.sp.val = k + 1) :
    s.pop = some (s.stack[k], { s with sp := ⟨k, by omega⟩ }) := by
  have e : s.sp = ⟨k + 1, by omega⟩ := Fin.ext h
  simp only [State.pop]
  split
  · rename_i h0; simp [h0] at h
  · rename_i k' hk' h1; rw [h1] at h; simp at h; subst h; rfl

theorem pop_of_zero (s : State) (h : s.sp.val = 0) : s.pop = none := by
  simp only [State.pop]
  split
  · rfl
  · rename_i k' hk' h1; rw [h1] at h; simp at h

/-! ## Key numbers -/

theorem keyIndex_of_le (b : Byte) (h : b.toNat < 16) : keyIndex b = some ⟨b.toNat, h⟩ := by simp [keyIndex, h]

theorem keyIndex_of_gt (b : Byte) (h : ¬ b.toNat < 16) : keyIndex b = none := by simp [keyIndex, h]

theorem lowestKey_eq_none_iff (s : State) : s.lowestKey = none ↔ ∀ k : Key, s.keys.getLsbD k.val = false := by
  simp [State.lowestKey, State.keyHeld]

theorem lowestKey_of_no_keys (s : State) (h : s.keys = 0) : s.lowestKey = none := by
  rw [lowestKey_eq_none_iff]; simp [h]

/-- The lowest held key: held, and no lower one is. -/
theorem lowestKey_eq_some_iff (s : State) (k : Key) :
    s.lowestKey = some k ↔ s.keys.getLsbD k.val = true ∧ ∀ j : Key, j < k → s.keys.getLsbD j.val = false := by
  unfold State.lowestKey State.keyHeld
  rw [List.find?_eq_some_iff_getElem]
  constructor
  · rintro ⟨hk, i, hi, rfl, hj⟩
    refine ⟨hk, fun j hlt => ?_⟩
    have hji : j.val < i := by rw [Fin.lt_def] at hlt; simpa using hlt
    simpa using hj j.val hji
  · rintro ⟨hk, hj⟩
    refine ⟨hk, k.val, by simp, by simp, fun j hlt => ?_⟩
    have := hj ⟨j, by omega⟩ (by simpa [Fin.lt_def] using hlt)
    simpa using this

/-! ## Registers in memory order, bounds, loads, the tick -/

theorem length_regsUpTo (s : State) (x : Reg) : (s.regsUpTo x).length = x.val + 1 := by simp [State.regsUpTo]

theorem getElem?_regsUpTo (s : State) (x j : Reg) (h : j ≤ x) : (s.regsUpTo x)[j.val]? = some (s.getV j) := by
  have hj : j.val < x.val + 1 := by have := Fin.le_def.1 h; omega
  simp [State.regsUpTo, State.getV, hj]

/-- A range that starts at the index register exists exactly when its last address does. -/
theorem rangeInMemory_ea (s : State) (n : Nat) (h : 0 < n) :
    rangeInMemory (s.ea 0) n = decide (s.ea (n - 1) ≤ 0xFFF) := by
  rw [Bool.eq_iff_iff, rangeInMemory_iff, decide_eq_true_iff]; simp only [State.ea]; omega

/-- A load that fits. -/
theorem load_of_fits (data : List Byte) (offset : Word) (s : State) (h : offset.toNat + data.length ≤ 4096) :
    load data offset s = s.setMem (s.mem.writeBytes offset.toNat data) := by
  simp [load, Memory.size]; omega

theorem toNat_countDown (b : Byte) : (countDown b).toNat = b.toNat - 1 := by
  unfold countDown; split
  · rename_i h; subst h; rfl
  · rename_i h
    have h0 : b.toNat ≠ 0 := fun e => h (BitVec.eq_of_toNat_eq e)
    have := b.isLt
    rw [BitVec.toNat_sub]; simp; omega

/-- A DRAW that fits, as one run of the sprite's numbered columns. -/
theorem draw_of_fits (x y : Reg) (n : Nibble) (s : State) (h : rangeInMemory (s.ea 0) n.toNat = true) :
    exec (.draw x y n) s =
      .next ((s.advance.show (plotNumbers (spriteBit s) (spriteAt s x y) (8 * n.toNat) s.screen).1).setFlag
        (plotNumbers (spriteBit s) (spriteAt s x y) (8 * n.toNat) s.screen).2) := by
  simp only [exec, execDraw, h, if_true]
  rw [plotSprite_eq_plotNumbers]; rfl

/-- On a screen of at least 8×15 no two numbers of one sprite land on the same pixel. -/
theorem spriteAt_injective (s : State) (x y : Reg) (j k : Nat) (hw : 8 ≤ s.cfg.width) (hh : 15 ≤ s.cfg.height)
    (hj : j < 8 * 15) (hk : k < 8 * 15) (e : spriteAt s x y j = spriteAt s x y k) : j = k := by
  simp only [spriteAt, Pixel.mk.injEq] at e
  have cancel : ∀ a b c W : Nat, b < W → c < W → (a + b) % W = (a + c) % W → b = c := fun a b c W hb hc h =>
    Nat.ModEq.eq_of_lt_of_lt (Nat.ModEq.add_left_cancel' a h) hb hc
  have h1 := cancel _ _ _ _ (by omega) (by omega) e.1
  have h2 := cancel _ _ _ _ (by omega) (by omega) e.2
  omega

/-! ## Fetch and step -/

theorem pc_bit0 (w : Word) : w.getLsbD 0 = decide (w.toNat % 2 = 1) := by
  simp [BitVec.getLsbD, Nat.testBit_zero]

theorem toNat_fetchWord (s : State) :
    s.fetchWord.toNat = (s.mem.read s.pc.toNat).toNat * 256 + (s.mem.read (s.pc.toNat + 1)).toNat :=
  toNat_wordOfBytes _ _

/-- What the fetch stage can answer. -/
theorem fetchDecode_eq (s : State) :
    (s.pc.toNat % 2 = 1 ∧ s.fetchDecode = .error (.misaligned s.pc)) ∨
    (s.pc.toNat % 2 = 0 ∧ 0xFFE < s.pc.toNat ∧ s.fetchDecode = .error (.boundsAtFetch s.pc)) ∨
    (s.pc.toNat % 2 = 0 ∧ s.pc.toNat ≤ 0xFFE ∧
      ((∃ i, decode s.cfg.alu8Map s.fetchWord = .ok i ∧ s.fetchDecode = .ok i) ∨
       (∃ r, decode s.cfg.alu8Map s.fetchWord = .error r ∧
         s.fetchDecode = .error (.decodeFailure s.pc s.fetchWord)))) := by
  unfold State.fetchDecode
  rw [pc_bit0]
  by_cases h1 : s.pc.toNat % 2 = 1
  · exact .inl ⟨h1, by simp [h1]⟩
  · have h0 : s.pc.toNat % 2 = 0 := by omega
    by_cases h2 : 0xFFE < s.pc.toNat
    · exact .inr (.inl ⟨h0, h2, by simp [h0, h2]⟩)
    · refine .inr (.inr ⟨h0, by omega, ?_⟩)
      cases hd : decode s.cfg.alu8Map s.fetchWord with
      | ok i => exact .inl ⟨i, rfl, by simp [h0, h2]⟩
      | error r => exact .inr ⟨r, rfl, by simp [h0, h2]⟩

/-- An instruction is fetched only from an even PC of at most 0xFFE, and it is what the word there decodes to. -/
theorem fetchDecode_ok (s : State) (i : Instr) (h : s.fetchDecode = .ok i) :
    s.pc.toNat % 2 = 0 ∧ s.pc.toNat ≤ 0xFFE ∧ decode s.cfg.alu8Map s.fetchWord = .ok i := by
  rcases fetchDecode_eq s with ⟨_, e⟩ | ⟨_, _, e⟩ | ⟨h0, h1, ⟨j, hj, e⟩ | ⟨r, _, e⟩⟩ <;> rw [e] at h <;> cases h
  exact ⟨h0, h1, hj⟩

/-- The four things a step can be. -/
theorem step_cases (s t : State) (h : step s = .next t) :
    ((s.run = .faulted ∨ s.run = .stopped) ∧ t = s) ∨
    (s.run = .awaitingKey ∧ t = keyWaitPoll s) ∨
    (s.run = .running ∧ ∃ r, s.fetchDecode = .error r ∧ t = s.raise r) ∨
    (s.run = .running ∧ ∃ i, s.fetchDecode = .ok i ∧ exec i s = .next t) := by
  unfold step at h
  split at h
  · rename_i e; cases h; exact .inl ⟨.inl e, rfl⟩
  · rename_i e; cases h; exact .inl ⟨.inr e, rfl⟩
  · rename_i e; cases h; exact .inr (.inl ⟨e, rfl⟩)
  · rename_i e
    split at h
    · rename_i r hr; cases h; exact .inr (.inr (.inl ⟨e, r, hr, rfl⟩))
    · rename_i i hi; exact .inr (.inr (.inr ⟨e, i, hi, h⟩))

/-- What a poll can do. -/
theorem keyWaitPoll_cases (s : State) :
    keyWaitPoll s = s ∨ keyWaitPoll s = s.resume ∨
    ∃ k : Key, s.lowestKey = some k ∧ s.cfg.keyWaitMode = .anyStore ∧
      keyWaitPoll s = (s.setV s.waitX (keyByte k)).resume := by
  unfold keyWaitPoll
  split
  · rename_i hm
    split
    · rename_i k hk; exact .inr (.inr ⟨k, hk, hm, rfl⟩)
    · exact .inl rfl
  · split
    · split
      · exact .inr (.inl rfl)
      · exact .inl rfl
    · exact .inl rfl

end Sys2Proof.Machine
end

