-- ==== Sys2Proof/Laws/Footprint.lean ====
section
/-! SUPPORT. What an instruction may do, said once for all of `exec`: it changes only the parts of its footprint, or it takes
a fatal error. The whole-machine rules are read off these lemmas. -/

namespace Sys2Proof.Machine

/-- The parts an instruction may change when it completes. -/
def footprint : Instr → List Part
  | .clear => [.screen, .redraw, .pc]
  | .ret => [.pc, .sp]
  | .syscall _ => [.pc, .events]
  | .jump _ => [.pc]
  | .call _ => [.pc, .sp, .stack]
  | .skipEqImm _ _ => [.pc]
  | .skipNeqImm _ _ => [.pc]
  | .skipEqReg _ _ => [.pc]
  | .loadImm _ _ => [.regs, .pc]
  | .addImm _ _ => [.regs, .pc]
  | .move _ _ => [.regs, .pc]
  | .or _ _ => [.regs, .pc]
  | .and _ _ => [.regs, .pc]
  | .xor _ _ => [.regs, .pc]
  | .addReg _ _ => [.regs, .pc]
  | .subReg _ _ => [.regs, .pc]
  | .shiftRight _ _ => [.regs, .pc]
  | .shiftLeft _ _ => [.regs, .pc]
  | .subReverse _ _ => [.regs, .pc]
  | .skipNeqReg _ _ => [.pc]
  | .loadIndex _ => [.index, .pc]
  | .jumpIndexed _ => [.pc]
  | .random _ _ => [.regs, .pc, .draws]
  | .draw _ _ _ => [.regs, .screen, .redraw, .pc]
  | .skipIfKey _ => [.pc]
  | .skipIfNotKey _ => [.pc]
  | .timerGet _ => [.regs, .pc]
  | .keyWait _ => [.pc, .regs, .run, .waitX]
  | .timerSetDelay _ => [.delay, .pc]
  | .timerSetSound _ => [.sound, .pc]
  | .indexAdd _ => [.index, .pc]
  | .fontAddr _ => [.index, .pc]
  | .bcdStore _ => [.mem, .pc]
  | .regDump _ => [.mem, .pc]
  | .regLoad _ => [.regs, .pc]

/-- A fatal error an instruction raises: the state before it, with a record that carries its address and its word. -/
def Raised (i : Instr) (s t : State) : Prop :=
  ∃ r : FaultRecord, t = s.raise r ∧ r.wf = true ∧ r.pc = some s.pc ∧ r.word = some (encode s.cfg.alu8Map i) ∧
    r.kind ≠ .loadError

theorem raised_atExecution (i : Instr) (s : State) (k : FaultKind)
    (h : k = .decodeError ∨ k = .stackOverflow ∨ k = .stackUnderflow) :
    Raised i s (s.raise (.atExecution k s.pc (encode s.cfg.alu8Map i))) := by
  rcases h with rfl | rfl | rfl <;> exact ⟨_, rfl, rfl, rfl, rfl, by simp [FaultRecord.atExecution]⟩

theorem raised_bounds (i : Instr) (s : State) :
    Raised i s (s.raise (.boundsAtExecution s.pc (encode s.cfg.alu8Map i))) :=
  ⟨_, rfl, rfl, rfl, rfl, by simp [FaultRecord.boundsAtExecution, FaultRecord.atExecution]⟩

theorem raised_keyRange (i : Instr) (s : State) (v : Byte) :
    Raised i s (s.raise (.keyRange s.pc (encode s.cfg.alu8Map i) v)) :=
  ⟨_, rfl, rfl, rfl, rfl, by simp [FaultRecord.keyRange, FaultRecord.atExecution]⟩

/-- A raise changes FAULT and RUN only (R402). -/
theorem raise_onlyChanges (s : State) (r : FaultRecord) : OnlyChanges [.fault, .run] s (s.raise r) := by
  intro p hp; cases p <;> simp_all [Unchanged]

theorem raise_raises (s : State) (r : FaultRecord) : Raises (.next (s.raise r)) s r :=
  ⟨_, rfl, rfl, rfl, raise_onlyChanges s r⟩

/-- What `exec` can do. -/
theorem exec_footprint (i : Instr) (s t : State) (h : exec i s = .next t) :
    OnlyChanges (footprint i) s t ∨ Raised i s t := by
  cases i with
  | ret =>
    by_cases hz : s.sp.val = 0
    · simp only [exec, execReturn, pop_of_zero s hz] at h; cases h; exact .inr (raised_atExecution _ s _ (by simp))
    · simp only [exec, execReturn, pop_of_succ s (s.sp.val - 1) (by omega) (by omega)] at h; cases h
      exact .inl fun p hp => by cases p <;> simp_all [Unchanged, footprint, State.getV]
  | call nnn =>
    by_cases hz : s.sp.val = 16
    · simp only [exec, execCall, push_of_full s _ hz] at h; cases h; exact .inr (raised_atExecution _ s _ (by simp))
    · simp only [exec, execCall, push_of_lt s _ (by omega : s.sp.val < 16)] at h; cases h
      exact .inl fun p hp => by cases p <;> simp_all [Unchanged, footprint, State.getV]
  | draw x y n =>
    simp only [exec, execDraw] at h
    split at h <;> cases h
    · exact .inl fun p hp => by cases p <;> simp_all [Unchanged, footprint]
    · exact .inr (raised_bounds _ s)
  | bcdStore x =>
    simp only [exec, execBcdStore] at h
    split at h <;> cases h
    · exact .inl fun p hp => by cases p <;> simp_all [Unchanged, footprint]
    · exact .inr (raised_bounds _ s)
  | regDump x =>
    simp only [exec, execRegDump] at h
    split at h <;> cases h
    · exact .inl fun p hp => by cases p <;> simp_all [Unchanged, footprint]
    · exact .inr (raised_bounds _ s)
  | regLoad x =>
    simp only [exec, execRegLoad] at h
    split at h <;> cases h
    · exact .inl fun p hp => by cases p <;> simp_all [Unchanged, footprint]
    · exact .inr (raised_bounds _ s)
  | skipIfKey x =>
    simp only [exec, execSkipIfKey, keySkip] at h
    split at h <;> cases h
    · exact .inl fun p hp => by cases p <;> simp_all [Unchanged, footprint]
    · exact .inr (raised_keyRange _ s _)
  | skipIfNotKey x =>
    simp only [exec, execSkipIfNotKey, keySkip] at h
    split at h <;> cases h
    · exact .inl fun p hp => by cases p <;> simp_all [Unchanged, footprint]
    · exact .inr (raised_keyRange _ s _)
  | keyWait x =>
    simp only [exec, execKeyWait] at h
    split at h
    · split at h <;> cases h <;> exact .inl fun p hp => by cases p <;> simp_all [Unchanged, footprint]
    · split at h <;> cases h
      · refine .inl ?_
        split <;> exact fun p hp => by cases p <;> simp_all [Unchanged, footprint]
      · exact .inr (raised_keyRange _ s _)
  | clear | syscall | jump | skipEqImm | skipNeqImm | skipEqReg | loadImm | addImm | move | or | and | xor | addReg | subReg
  | shiftRight | shiftLeft | subReverse | skipNeqReg | loadIndex | jumpIndexed | random | timerGet | timerSetDelay
  | timerSetSound | indexAdd | fontAddr =>
    cases h
    exact .inl fun p hp => by cases p <;> simp_all [Unchanged, footprint]

/-! ## The step and the host's calls -/

theorem onlyChanges_refl (l : List Part) (s : State) : OnlyChanges l s s := by
  intro p _; cases p <;> simp [Unchanged]

/-- What a step can do. -/
theorem step_footprint (s t : State) (h : step s = .next t) :
    (t = s ∧ s.run ≠ .running) ∨
    (s.run = .awaitingKey ∧ OnlyChanges [.regs, .run] s t ∧ t.run = .running) ∨
    (s.run = .running ∧ ∃ r, t = s.raise r) ∨
    (s.run = .running ∧ ∃ i, s.fetchDecode = .ok i ∧ exec i s = .next t ∧ OnlyChanges (footprint i) s t) := by
  rcases step_cases s t h with ⟨h1, rfl⟩ | ⟨h1, rfl⟩ | ⟨h1, r, _, h3⟩ | ⟨h1, i, h2, h3⟩
  · exact .inl ⟨rfl, by rcases h1 with h1 | h1 <;> simp [h1]⟩
  · rcases keyWaitPoll_cases s with e | e | ⟨k, _, _, e⟩ <;> rw [e]
    · exact .inl ⟨rfl, by simp [h1]⟩
    all_goals refine .inr (.inl ⟨h1, fun p hp => ?_, by simp⟩); cases p <;> simp_all [Unchanged]
  · exact .inr (.inr (.inl ⟨h1, r, h3⟩))
  · rcases exec_footprint i s t h3 with hf | ⟨r, hr, _⟩
    · exact .inr (.inr (.inr ⟨h1, i, h2, h3, hf⟩))
    · exact .inr (.inr (.inl ⟨h1, r, hr⟩))

/-- A part a step changes is in the footprint of the instruction it runs. -/
theorem step_changes (s t : State) (p : Part) (h : step s = .next t) (hp : ¬ Unchanged s t p)
    (h1 : p ≠ .fault) (h2 : p ≠ .run) (h3 : p ≠ .regs) :
    s.run = .running ∧ ∃ i, s.fetchDecode = .ok i ∧ exec i s = .next t ∧ OnlyChanges (footprint i) s t ∧
      p ∈ footprint i := by
  rcases step_footprint s t h with ⟨rfl, _⟩ | ⟨_, e, _⟩ | ⟨_, r, rfl⟩ | ⟨hr, i, hi, hx, hf⟩
  · exact absurd (onlyChanges_refl [] t p (by simp)) hp
  · exact absurd (e p (by simp [h2, h3])) hp
  · exact absurd (raise_onlyChanges s r p (by simp [h1, h2])) hp
  · exact ⟨hr, i, hi, hx, hf, by by_contra hn; exact hp (hf p hn)⟩

/-- What a call that is no step can do. -/
theorem call_footprint (c : HostCall) (s t : State) (h : c.after s = .next t) (hc : c ≠ .step) :
    OnlyChanges [.keys, .redraw, .run, .delay, .sound] s t ∧
    (¬ Unchanged s t .keys → ∃ k, c = .setKey k ∨ c = .unsetKey k) ∧
    (¬ (Unchanged s t .delay ∧ Unchanged s t .sound) → c = .tickTimers) ∧
    (¬ Unchanged s t .run → c = .quit ∧ t.run = .stopped) := by
  cases c <;> simp only [HostCall.after, Host.Outcome.next.injEq] at h <;> try exact absurd rfl hc
  all_goals subst h
  case tickTimers =>
    unfold tickTimers; split <;> rename_i hh
    all_goals
      refine ⟨fun p hp => ?_, by simp [Unchanged], by simp [Unchanged], by simp [Unchanged]⟩
      cases p <;> simp_all [Unchanged, State.getV]
  case quit =>
    unfold quit; split <;> rename_i hh
    all_goals
      refine ⟨fun p hp => ?_, by simp [Unchanged], by simp [Unchanged], by simp [Unchanged]⟩
      cases p <;> simp_all [Unchanged, State.getV]
  all_goals
    refine ⟨fun p hp => ?_, by simp [Unchanged, setKey, unsetKey, readBuffer],
      by simp [Unchanged, setKey, unsetKey, readBuffer], by simp [Unchanged, setKey, unsetKey, readBuffer]⟩
    cases p <;> simp_all [Unchanged, State.getV, setKey, unsetKey, readBuffer]

end Sys2Proof.Machine
end

