-- ==== Sys2Proof/Laws/PerInstr.lean ====
section
/-! SUPPORT. The family `TableRow`: the word the encoder gives a well-formed instruction has, under its row's mask in
spec/opcode_table.json, the row's match. The rows are written from the table, not from the encoder. -/

namespace Sys2Proof.Laws

/-- `mask` and `match` of a row of spec/opcode_table.json. -/
structure Row where
  mask : Word
  bits : Word
  deriving DecidableEq, Repr

/-- The row of an instruction; SHIFT_LEFT has one for each ALU_8_MAP. -/
def rowOf (m : Alu8Map) : Instr → Row
  | .clear => ⟨0xFFFF, 0x00E0⟩
  | .ret => ⟨0xFFFF, 0x00EE⟩
  | .syscall _ => ⟨0xF000, 0x0000⟩
  | .jump _ => ⟨0xF000, 0x1000⟩
  | .call _ => ⟨0xF000, 0x2000⟩
  | .skipEqImm _ _ => ⟨0xF000, 0x3000⟩
  | .skipNeqImm _ _ => ⟨0xF000, 0x4000⟩
  | .skipEqReg _ _ => ⟨0xF000, 0x5000⟩
  | .loadImm _ _ => ⟨0xF000, 0x6000⟩
  | .addImm _ _ => ⟨0xF000, 0x7000⟩
  | .move _ _ => ⟨0xF00F, 0x8000⟩
  | .or _ _ => ⟨0xF00F, 0x8001⟩
  | .and _ _ => ⟨0xF00F, 0x8002⟩
  | .xor _ _ => ⟨0xF00F, 0x8003⟩
  | .addReg _ _ => ⟨0xF00F, 0x8004⟩
  | .subReg _ _ => ⟨0xF00F, 0x8005⟩
  | .shiftRight _ _ => ⟨0xF00F, 0x8006⟩
  | .shiftLeft _ _ => ⟨0xF00F, match m with | .table => 0x8007 | .conventional => 0x800E⟩
  | .subReverse _ _ => ⟨0xF00F, 0x8007⟩
  | .skipNeqReg _ _ => ⟨0xF000, 0x9000⟩
  | .loadIndex _ => ⟨0xF000, 0xA000⟩
  | .jumpIndexed _ => ⟨0xF000, 0xB000⟩
  | .random _ _ => ⟨0xF000, 0xC000⟩
  | .draw _ _ _ => ⟨0xF000, 0xD000⟩
  | .skipIfKey _ => ⟨0xF0FF, 0xE09E⟩
  | .skipIfNotKey _ => ⟨0xF0FF, 0xE0A1⟩
  | .timerGet _ => ⟨0xF0FF, 0xF007⟩
  | .keyWait _ => ⟨0xF0FF, 0xF00A⟩
  | .timerSetDelay _ => ⟨0xF0FF, 0xF015⟩
  | .timerSetSound _ => ⟨0xF0FF, 0xF018⟩
  | .indexAdd _ => ⟨0xF0FF, 0xF01E⟩
  | .fontAddr _ => ⟨0xF0FF, 0xF029⟩
  | .bcdStore _ => ⟨0xF0FF, 0xF033⟩
  | .regDump _ => ⟨0xF0FF, 0xF055⟩
  | .regLoad _ => ⟨0xF0FF, 0xF065⟩

/-- An instruction word lies in its row. -/
def TableRow.Statement (i : Instr) : Prop :=
  ∀ m : Alu8Map, i.wellFormed m = true → encode m i &&& (rowOf m i).mask = (rowOf m i).bits

/-! ## Bits of a packed word -/

theorem bit_packNNN (op : Nibble) (nnn : Addr) (i : Nat) :
    (packNNN op nnn).getLsbD i = if i < 12 then nnn.getLsbD i else op.getLsbD (i - 12) :=
  BitVec.getLsbD_append

theorem bit_packXKK (op : Nibble) (x : Reg) (kk : Byte) (i : Nat) :
    (packXKK op x kk).getLsbD i =
      if i < 8 then kk.getLsbD i else if i - 8 < 4 then (BitVec.ofFin x : Nibble).getLsbD (i - 8)
      else op.getLsbD (i - 8 - 4) := by
  rw [← BitVec.getLsbD_append]; exact BitVec.getLsbD_append

theorem bit_packXYN (op : Nibble) (x y : Reg) (n : Nibble) (i : Nat) :
    (packXYN op x y n).getLsbD i =
      if i < 4 then n.getLsbD i else if i - 4 < 4 then (BitVec.ofFin y : Nibble).getLsbD (i - 4)
      else if i - 4 - 4 < 4 then (BitVec.ofFin x : Nibble).getLsbD (i - 4 - 4) else op.getLsbD (i - 4 - 4 - 4) := by
  rw [← BitVec.getLsbD_append, ← BitVec.getLsbD_append]; exact BitVec.getLsbD_append

theorem mask_packNNN (op : Nibble) (nnn : Addr) : packNNN op nnn &&& 0xF000 = packNNN op 0 := by
  apply BitVec.eq_of_getLsbD_eq; intro i hi; rw [BitVec.getLsbD_and, bit_packNNN, bit_packNNN]
  interval_cases i <;> simp

theorem mask_packXKK (op : Nibble) (x : Reg) (kk : Byte) : packXKK op x kk &&& 0xF000 = packXKK op 0 0 := by
  apply BitVec.eq_of_getLsbD_eq; intro i hi; rw [BitVec.getLsbD_and, bit_packXKK, bit_packXKK]
  interval_cases i <;> simp

theorem maskLow_packXKK (op : Nibble) (x : Reg) (kk : Byte) : packXKK op x kk &&& 0xF0FF = packXKK op 0 kk := by
  apply BitVec.eq_of_getLsbD_eq; intro i hi; rw [BitVec.getLsbD_and, bit_packXKK, bit_packXKK]
  interval_cases i <;> simp

theorem mask_packXYN (op : Nibble) (x y : Reg) (n : Nibble) : packXYN op x y n &&& 0xF000 = packXYN op 0 0 0 := by
  apply BitVec.eq_of_getLsbD_eq; intro i hi; rw [BitVec.getLsbD_and, bit_packXYN, bit_packXYN]
  interval_cases i <;> simp

theorem maskLow_packXYN (op : Nibble) (x y : Reg) (n : Nibble) :
    packXYN op x y n &&& 0xF00F = packXYN op 0 0 n := by
  apply BitVec.eq_of_getLsbD_eq; intro i hi; rw [BitVec.getLsbD_and, bit_packXYN, bit_packXYN]
  interval_cases i <;> simp

/-! ## One lemma for each constructor -/

theorem TableRow.clear : TableRow.Statement .clear := fun m _ => by cases m <;> decide
theorem TableRow.ret : TableRow.Statement .ret := fun m _ => by cases m <;> decide
theorem TableRow.syscall (nnn : Addr) : TableRow.Statement (.syscall nnn) := fun _ _ => mask_packNNN _ nnn
theorem TableRow.jump (nnn : Addr) : TableRow.Statement (.jump nnn) := fun _ _ => mask_packNNN _ nnn
theorem TableRow.call (nnn : Addr) : TableRow.Statement (.call nnn) := fun _ _ => mask_packNNN _ nnn
theorem TableRow.skipEqImm (x : Reg) (kk : Byte) : TableRow.Statement (.skipEqImm x kk) :=
  fun _ _ => mask_packXKK _ x kk
theorem TableRow.skipNeqImm (x : Reg) (kk : Byte) : TableRow.Statement (.skipNeqImm x kk) :=
  fun _ _ => mask_packXKK _ x kk
theorem TableRow.skipEqReg (x : Reg) (y : Reg) : TableRow.Statement (.skipEqReg x y) :=
  fun _ _ => mask_packXYN _ x y _
theorem TableRow.loadImm (x : Reg) (kk : Byte) : TableRow.Statement (.loadImm x kk) := fun _ _ => mask_packXKK _ x kk
theorem TableRow.addImm (x : Reg) (kk : Byte) : TableRow.Statement (.addImm x kk) := fun _ _ => mask_packXKK _ x kk
theorem TableRow.move (x : Reg) (y : Reg) : TableRow.Statement (.move x y) := fun _ _ => maskLow_packXYN _ x y _
theorem TableRow.or (x : Reg) (y : Reg) : TableRow.Statement (.or x y) := fun _ _ => maskLow_packXYN _ x y _
theorem TableRow.and (x : Reg) (y : Reg) : TableRow.Statement (.and x y) := fun _ _ => maskLow_packXYN _ x y _
theorem TableRow.xor (x : Reg) (y : Reg) : TableRow.Statement (.xor x y) := fun _ _ => maskLow_packXYN _ x y _
theorem TableRow.addReg (x : Reg) (y : Reg) : TableRow.Statement (.addReg x y) := fun _ _ => maskLow_packXYN _ x y _
theorem TableRow.subReg (x : Reg) (y : Reg) : TableRow.Statement (.subReg x y) := fun _ _ => maskLow_packXYN _ x y _
theorem TableRow.shiftRight (x : Reg) (y : Reg) : TableRow.Statement (.shiftRight x y) :=
  fun _ _ => maskLow_packXYN _ x y _
theorem TableRow.shiftLeft (x : Reg) (y : Reg) : TableRow.Statement (.shiftLeft x y) :=
  fun m _ => by cases m <;> exact maskLow_packXYN _ x y _
theorem TableRow.subReverse (x : Reg) (y : Reg) : TableRow.Statement (.subReverse x y) :=
  fun _ _ => maskLow_packXYN _ x y _
theorem TableRow.skipNeqReg (x : Reg) (y : Reg) : TableRow.Statement (.skipNeqReg x y) :=
  fun _ _ => mask_packXYN _ x y _
theorem TableRow.loadIndex (nnn : Addr) : TableRow.Statement (.loadIndex nnn) := fun _ _ => mask_packNNN _ nnn
theorem TableRow.jumpIndexed (nnn : Addr) : TableRow.Statement (.jumpIndexed nnn) := fun _ _ => mask_packNNN _ nnn
theorem TableRow.random (x : Reg) (kk : Byte) : TableRow.Statement (.random x kk) := fun _ _ => mask_packXKK _ x kk
theorem TableRow.draw (x : Reg) (y : Reg) (n : Nibble) : TableRow.Statement (.draw x y n) :=
  fun _ _ => mask_packXYN _ x y n
theorem TableRow.skipIfKey (x : Reg) : TableRow.Statement (.skipIfKey x) := fun _ _ => maskLow_packXKK _ x _
theorem TableRow.skipIfNotKey (x : Reg) : TableRow.Statement (.skipIfNotKey x) := fun _ _ => maskLow_packXKK _ x _
theorem TableRow.timerGet (x : Reg) : TableRow.Statement (.timerGet x) := fun _ _ => maskLow_packXKK _ x _
theorem TableRow.keyWait (x : Reg) : TableRow.Statement (.keyWait x) := fun _ _ => maskLow_packXKK _ x _
theorem TableRow.timerSetDelay (x : Reg) : TableRow.Statement (.timerSetDelay x) := fun _ _ => maskLow_packXKK _ x _
theorem TableRow.timerSetSound (x : Reg) : TableRow.Statement (.timerSetSound x) := fun _ _ => maskLow_packXKK _ x _
theorem TableRow.indexAdd (x : Reg) : TableRow.Statement (.indexAdd x) := fun _ _ => maskLow_packXKK _ x _
theorem TableRow.fontAddr (x : Reg) : TableRow.Statement (.fontAddr x) := fun _ _ => maskLow_packXKK _ x _
theorem TableRow.bcdStore (x : Reg) : TableRow.Statement (.bcdStore x) := fun _ _ => maskLow_packXKK _ x _
theorem TableRow.regDump (x : Reg) : TableRow.Statement (.regDump x) := fun _ _ => maskLow_packXKK _ x _
theorem TableRow.regLoad (x : Reg) : TableRow.Statement (.regLoad x) := fun _ _ => maskLow_packXKK _ x _

end Sys2Proof.Laws
end

