-- ==== Sys2Proof/Tests/Slice0.lean ====
section
/-! SUPPORT. Tests. Expected results are those of spec/95_test_vectors.md ("S<n>" and the family tables) or are written out
from the encodings of spec/30_encoding.md, never taken from the model. Then, for each obligation with hypotheses, a
witness that meets them, for each clause and at the boundary values of its ranges. -/

namespace Sys2Proof.Tests

open Sys2Proof.Machine

/-! ## Helpers -/

/-- The state an outcome goes on with. -/
def next? : Host.Outcome State Fault Refusal → Option State
  | .next t => some t
  | .fault _ => none
  | .refused _ => none

/-- The machine of the vectors: CONVENTIONAL and ANY_STORE. -/
def m1 : State := State.reset

/-- The other settings: TABLE and DESIGNATED_VX. -/
def m2 : State :=
  { State.reset with cfg := { State.reset.cfg with alu8Map := .table, keyWaitMode := .designatedVx } }

def withRegs (s : State) (l : List (Reg × Byte)) : State := l.foldl (fun s p => s.setV p.1 p.2) s
def withBytes (s : State) (a : Nat) (l : List Byte) : State := s.setMem (s.mem.writeBytes a l)
def atIndex (s : State) (a : Word) : State := s.setIndex a
def withLit (s : State) (l : List Pixel) : State := { s with screen := ⟨l⟩ }
def withKeys (s : State) (ks : List Key) : State := ks.foldl (fun s k => setKey k s) s
def atDepth (s : State) (n : Fin 17) (a : Word) : State := { s with sp := n, stack := Vector.replicate 16 a }
def waiting (s : State) (x : Reg) : State := s.awaitKey x

/-- One step on the word `w`, placed at PC. -/
def ran (s : State) (w : Nat) : Option State := next? (step (s.withFetchWord 16 w))

/-- What one step on `w` leaves in some registers and PC. -/
def regsAfter (s : State) (w : Nat) (l : List Reg) : Option (List Byte × Word) :=
  (ran s w).map fun t => (l.map t.getV, t.pc)

/-- What one step on `w` records. -/
def faultAfter (s : State) (w : Nat) : Option (Option FaultRecord × RunState × Word) :=
  (ran s w).map fun t => (t.fault, t.run, t.pc)

/-! ## WellFormed: a term each check refuses -/

theorem test_syscall_00E0_ill_formed (m : Alu8Map) : (Instr.syscall 0x0E0).wellFormed m = false := by cases m <;> decide
theorem test_syscall_00EE_ill_formed (m : Alu8Map) : (Instr.syscall 0x0EE).wellFormed m = false := by cases m <;> decide
theorem test_subReverse_ill_formed_table : (Instr.subReverse 0xA 0xB).wellFormed .table = false := by decide
theorem test_subReverse_well_formed_conventional : (Instr.subReverse 0xA 0xB).wellFormed .conventional = true := by
  decide

/-! ## Decode: a written-out word for every constructor (30_encoding.md R115 to R121) -/

theorem test_decode_words_0_to_7 (m : Alu8Map) :
    decode m 0b0000000011100000 = .ok .clear ∧ decode m 0b0000000011101110 = .ok .ret ∧
    decode m 0b0000000011100001 = .ok (.syscall 0x0E1) ∧ decode m 0b0000000000000000 = .ok (.syscall 0x000) ∧
    decode m 0b0001101010111100 = .ok (.jump 0xABC) ∧ decode m 0b0010111111111111 = .ok (.call 0xFFF) ∧
    decode m 0b0011101000000000 = .ok (.skipEqImm 0xA 0x00) ∧ decode m 0b0100001100010010 = .ok (.skipNeqImm 3 0x12) ∧
    decode m 0b0101101010110011 = .ok (.skipEqReg 0xA 0xB) ∧ decode m 0b0110101000000111 = .ok (.loadImm 0xA 0x07) ∧
    decode m 0b0111111111111111 = .ok (.addImm 0xF 0xFF) := by cases m <;> decide

theorem test_decode_words_8 (m : Alu8Map) :
    decode m 0b1000101010110000 = .ok (.move 0xA 0xB) ∧ decode m 0b1000101010110001 = .ok (.or 0xA 0xB) ∧
    decode m 0b1000101010110010 = .ok (.and 0xA 0xB) ∧ decode m 0b1000101010110011 = .ok (.xor 0xA 0xB) ∧
    decode m 0b1000101010110100 = .ok (.addReg 0xA 0xB) ∧ decode m 0b1000101010110101 = .ok (.subReg 0xA 0xB) ∧
    decode m 0b1000101010110110 = .ok (.shiftRight 0xA 0xB) := by cases m <;> decide

theorem test_decode_words_8_parameter :
    decode .table 0b1000101010110111 = .ok (.shiftLeft 0xA 0xB) ∧
    decode .conventional 0b1000101010110111 = .ok (.subReverse 0xA 0xB) ∧
    decode .table 0b1000101010111110 = .error (.aluFunction 0xE) ∧
    decode .conventional 0b1000101010111110 = .ok (.shiftLeft 0xA 0xB) := by decide

theorem test_decode_words_9_to_E (m : Alu8Map) :
    decode m 0b1001000100100001 = .ok (.skipNeqReg 1 2) ∧ decode m 0b1010000100100011 = .ok (.loadIndex 0x123) ∧
    decode m 0b1011111111111111 = .ok (.jumpIndexed 0xFFF) ∧ decode m 0b1100001111111111 = .ok (.random 3 0xFF) ∧
    decode m 0b1101000100100101 = .ok (.draw 1 2 5) ∧ decode m 0b1101000100100000 = .ok (.draw 1 2 0) ∧
    decode m 0b1110000110011110 = .ok (.skipIfKey 1) ∧ decode m 0b1110001010100001 = .ok (.skipIfNotKey 2) := by
  cases m <;> decide

theorem test_decode_words_F (m : Alu8Map) :
    decode m 0b1111001000000111 = .ok (.timerGet 2) ∧ decode m 0b1111001100001010 = .ok (.keyWait 3) ∧
    decode m 0b1111000100010101 = .ok (.timerSetDelay 1) ∧ decode m 0b1111000100011000 = .ok (.timerSetSound 1) ∧
    decode m 0b1111001000011110 = .ok (.indexAdd 2) ∧ decode m 0b1111000100101001 = .ok (.fontAddr 1) ∧
    decode m 0b1111001100110011 = .ok (.bcdStore 3) ∧ decode m 0b1111111101010101 = .ok (.regDump 0xF) ∧
    decode m 0b1111111101100101 = .ok (.regLoad 0xF) := by cases m <;> decide

theorem test_decode_failures (m : Alu8Map) :
    [0x8008, 0x800C, 0x800F, 0xE09F, 0xE000, 0xEFFF, 0xF000, 0xF166, 0xFFFF].all
      (fun w => match decode m (BitVec.ofNat 16 w) with | .ok _ => false | .error _ => true) = true := by
  cases m <;> decide

/-- The words R5 lists as SUPER-CHIP's: SYSCALL by R115, failures by R122, DRAW of height 0 by R116 (log entry 19). -/
theorem test_decode_superchip_words (m : Alu8Map) :
    decode m 0x00C0 = .ok (.syscall 0x0C0) ∧ decode m 0x00FB = .ok (.syscall 0x0FB) ∧
    decode m 0x00FF = .ok (.syscall 0x0FF) ∧ decode m 0xF030 = .error (.miscFunction 0x30) ∧
    decode m 0xF075 = .error (.miscFunction 0x75) ∧ decode m 0xF085 = .error (.miscFunction 0x85) ∧
    decode m 0xD120 = .ok (.draw 1 2 0) := by cases m <;> decide

theorem test_decode_too_short (m : Alu8Map) :
    decodeBytes m [] = .error .tooShort ∧ decodeBytes m [0x12] = .error .tooShort := by cases m <;> decide

/-- The host's two questions evaluate. -/
theorem test_decodeTableWord : decodeTableWord 16 0xD125 = some (.draw 1 2 5) ∧ decodeTableWord 16 0xF000 = none := by
  decide

theorem test_withFetchWord_runs : (ran State.reset 0x6A07).map (fun t => (t.getV 0xA, t.pc)) = some (0x07, 0x202) := by
  decide

/-! ## Reset and boot -/

theorem test_reset_forms : State.reset.mem.wf ∧ State.reset.screen.wf State.reset.cfg ∧ State.reset.pc = 0x200 := by
  decide

set_option maxRecDepth 4000 in
/-- R453: font at 0x050, ROM at 0x200. -/
theorem test_boot :
    (boot m1.cfg [0x12, 0x04]).mem.read 0x050 = 0xF0 ∧ (boot m1.cfg [0x12, 0x04]).mem.read 0x09F = 0x80 ∧
    (boot m1.cfg [0x12, 0x04]).mem.read 0x201 = 0x04 := by decide

/-- "load(data, 0xFFF) with len(data) = 1" fits; one byte more does not. -/
theorem test_load_edge : (load [0xAB] 0xFFF m1).mem.read 0xFFF = 0xAB ∧
    (load [0xAB, 0xCD] 0xFFF m1).fault = some ⟨.loadError, none, none, some 0xFFF, some 2⟩ ∧
    (load [0xAB, 0xCD] 0xFFF m1).mem = m1.mem := by decide

/-! ## Fetch stage -/

theorem test_decode_error : faultAfter m1 0xF000 =
    some (some ⟨.decodeError, some 0x200, some 0xF000, none, none⟩, .faulted, 0x200) := by decide

/-- PC = 0xFFF: "the first check wins". -/
theorem test_misaligned_before_bounds : (next? (step (m1.setPc 0xFFF))).map (·.fault) =
    some (some ⟨.pcMisaligned, some 0xFFF, none, none, none⟩) := by decide

theorem test_fetch_bounds : (next? (step (m1.setPc 0x1000))).map (·.fault) =
    some (some ⟨.memoryBoundsError, some 0x1000, none, some 0x1000, none⟩) := by decide

theorem test_fetch_last_word : regsAfter (m1.setPc 0xFFE) 0x6001 [0] = some ([1], 0x1000) := by decide

/-! ## Control flow -/

theorem test_return_empty : faultAfter m1 0x00EE =
    some (some ⟨.stackUnderflow, some 0x200, some 0x00EE, none, none⟩, .faulted, 0x200) := by decide
theorem test_return : (ran (atDepth m1 1 0x1000) 0x00EE).map (fun t => (t.pc, t.sp)) = some (0x1000, 0) := by decide
theorem test_syscall : (ran m1 0x0123).map (fun t => (t.pc, t.events)) = some (0x202, [⟨0x200, 0x123⟩]) := by decide
theorem test_jump : regsAfter m1 0x1ABC [] = some ([], 0xABC) := by decide
theorem test_call : (ran (m1.setPc 0xFFE) 0x2400).map (fun t => (t.pc, t.sp, t.stack[0])) =
    some (0x400, 1, 0x1000) := by decide
theorem test_call_full : faultAfter (atDepth m1 16 0x202) 0x2300 =
    some (some ⟨.stackOverflow, some 0x200, some 0x2300, none, none⟩, .faulted, 0x200) := by decide
theorem test_skipEqImm_taken : regsAfter (withRegs (m1.setPc 0xFFE) [(3, 0x12)]) 0x3312 [] = some ([], 0x1002) := by
  decide
theorem test_skipNeqImm_not_taken : regsAfter (withRegs m1 [(3, 0x12)]) 0x4312 [] = some ([], 0x202) := by decide
theorem test_skipNeqImm_taken : regsAfter (withRegs m1 [(3, 0x13)]) 0x4312 [] = some ([], 0x204) := by decide
theorem test_skipEqReg_ignored_bits : regsAfter (withRegs m1 [(1, 7), (2, 7)]) 0x5123 [] = some ([], 0x204) := by
  decide
theorem test_skipNeqReg_not_taken : regsAfter (withRegs m1 [(1, 7), (2, 7)]) 0x9120 [] = some ([], 0x202) := by decide
theorem test_jumpIndexed_unmasked : regsAfter (withRegs m1 [(0, 0xFF)]) 0xBFFF [] = some ([], 0x10FE) := by decide

/-! ## Arithmetic and logic -/

theorem test_loadImm : regsAfter m1 0x6A07 [0xA, 0xF] = some ([0x07, 0], 0x202) := by decide
theorem test_addImm_wraps : regsAfter (withRegs m1 [(0, 0xFF)]) 0x7001 [0, 15] = some ([0x00, 0], 0x202) := by decide
theorem test_addImm_vf : regsAfter (withRegs m1 [(15, 0x01)]) 0x7FFF [15] = some ([0x00], 0x202) := by decide
theorem test_move : regsAfter (withRegs m1 [(1, 0x3C)]) 0x8010 [0, 1] = some ([0x3C, 0x3C], 0x202) := by decide
theorem test_or_keeps_vf : regsAfter (withRegs m1 [(0, 0xF0), (1, 0x0F), (15, 0x55)]) 0x8011 [0, 15] =
    some ([0xFF, 0x55], 0x202) := by decide
theorem test_and : regsAfter (withRegs m1 [(0, 0xF0), (1, 0x3C)]) 0x8012 [0] = some ([0x30], 0x202) := by decide
theorem test_xor_self : regsAfter (withRegs m1 [(2, 0x5A)]) 0x8223 [2] = some ([0x00], 0x202) := by decide
theorem test_addReg_carry : regsAfter (withRegs m1 [(0, 0xFF), (1, 0x01)]) 0x8014 [0, 15] =
    some ([0x00, 1], 0x202) := by decide
theorem test_addReg_vf_destination : regsAfter (withRegs m1 [(15, 0x10), (1, 0xF5)]) 0x8F14 [15] =
    some ([1], 0x202) := by decide
theorem test_subReg_borrow : regsAfter (withRegs m1 [(0, 0x03), (1, 0x05)]) 0x8015 [0, 15] =
    some ([0xFE, 0], 0x202) := by decide
theorem test_subReg_equal : regsAfter (withRegs m1 [(0, 0x07)]) 0x8005 [0, 15] = some ([0x00, 1], 0x202) := by decide
theorem test_shiftRight_source : regsAfter (withRegs m1 [(0, 0x06), (1, 0xFF)]) 0x8016 [0, 15] =
    some ([0x03, 0], 0x202) := by decide
theorem test_shiftRight_vf : regsAfter (withRegs m1 [(15, 0x02)]) 0x8F06 [15] = some ([0], 0x202) := by decide
theorem test_shiftLeft_conventional : regsAfter (withRegs m1 [(0, 0x81)]) 0x800E [0, 15] =
    some ([0x02, 1], 0x202) := by decide
theorem test_shiftLeft_table : regsAfter (withRegs m2 [(0, 0x7F)]) 0x8007 [0, 15] = some ([0xFE, 0], 0x202) := by
  decide
theorem test_subReverse : regsAfter (withRegs m1 [(0, 0x03), (1, 0x05)]) 0x8017 [0, 15] =
    some ([0x02, 1], 0x202) := by decide
theorem test_subReverse_borrow : regsAfter (withRegs m1 [(0, 0x05), (1, 0x03)]) 0x8017 [0, 15] =
    some ([0xFE, 0], 0x202) := by decide

/-- "the only draw in 0..0": the one value of RANDOM the spec fixes. -/
theorem test_random_mask_zero (s : State) : (s.drawRandom 0x00).1 = 0x00 := by simp [State.drawRandom, Nat.mod_one]

/-! ## Index and memory -/

theorem test_loadIndex : (ran m1 0xA123).map (·.index) = some 0x123 := by decide
theorem test_indexAdd_wraps : (ran (withRegs (atIndex m1 0xFFF) [(0, 0x01)]) 0xF01E).map
    (fun t => (t.index, t.getV 15)) = some (0x000, 0) := by decide
theorem test_fontAddr_low_nibble : (ran (withRegs m1 [(1, 0x3A)]) 0xF129).map (·.index) = some 0x082 := by decide
theorem test_bcdStore_top : (ran (withRegs (atIndex m1 0xFFD) [(3, 123)]) 0xF333).map
    (fun t => [t.mem.read 0xFFD, t.mem.read 0xFFE, t.mem.read 0xFFF]) = some [1, 2, 3] := by decide
theorem test_bcdStore_bounds : faultAfter (withRegs (atIndex m1 0xFFE) [(3, 123)]) 0xF333 =
    some (some ⟨.memoryBoundsError, some 0x200, some 0xF333, some 0x1000, none⟩, .faulted, 0x200) := by decide
theorem test_regDump : (ran (withRegs (atIndex m1 0xFF0) [(0, 0x10), (14, 14), (15, 15)]) 0xFF55).map
    (fun t => ([t.mem.read 0xFF0, t.mem.read 0xFFE, t.mem.read 0xFFF], t.index)) =
    some ([0x10, 14, 15], 0xFF0) := by decide
theorem test_regDump_bounds : (faultAfter (atIndex m1 0xFF1) 0xFF55).map (·.2.1) = some .faulted := by decide
theorem test_regLoad : (ran (withBytes (atIndex m1 0x300) 0x300 [0xAA, 0xBB]) 0xF065).map
    (fun t => (t.getV 0, t.getV 1, t.index)) = some (0xAA, 0, 0x300) := by decide
theorem test_regLoad_bounds : (ran (withRegs (atIndex m1 0xFFF) [(0, 9)]) 0xF165).map
    (fun t => (t.getV 0, t.run)) = some (9, .faulted) := by decide

/-! ## Display -/

theorem test_clear : (ran (withLit m1 [⟨3, 4⟩]) 0x00E0).map (fun t => (t.screen.lit, t.redraw)) = some ([], true) := by
  decide

/-- V0 = 60, V1 = 31, row FF: pixels (60..63, 31) and (0..3, 31). -/
theorem test_draw_wraps : (ran (withRegs (withBytes (atIndex m1 0x300) 0x300 [0xFF]) [(0, 60), (1, 31)])
    0xD011).map (fun t => (t.screen.lit, t.getV 15)) =
    some ([⟨0, 31⟩, ⟨1, 31⟩, ⟨2, 31⟩, ⟨3, 31⟩, ⟨60, 31⟩, ⟨61, 31⟩, ⟨62, 31⟩, ⟨63, 31⟩], 0) := by decide

/-- VF = 5 is the origin column, then the collision flag. -/
theorem test_draw_origin_in_vf : (ran (withLit (withRegs (withBytes (atIndex m1 0x300) 0x300 [0x80])
    [(15, 5), (1, 0)]) [⟨5, 0⟩]) 0xDF11).map (fun t => (t.screen.lit, t.getV 15)) = some ([], 1) := by decide

/-! ## Keys and timers -/

theorem test_skipIfKey : regsAfter (withKeys (withRegs m1 [(5, 0x0A)]) [0xA]) 0xE59E [] = some ([], 0x204) := by decide
theorem test_skipIfKey_range : faultAfter (withRegs m1 [(5, 0x10)]) 0xE59E =
    some (some ⟨.keyRangeError, some 0x200, some 0xE59E, none, some 0x10⟩, .faulted, 0x200) := by decide
theorem test_skipIfNotKey : regsAfter (withRegs m1 [(5, 0x0A)]) 0xE5A1 [] = some ([], 0x204) := by decide
theorem test_keyWait_lowest : (ran (withKeys m1 [9, 3]) 0xF10A).map (fun t => (t.getV 1, t.run, t.pc)) =
    some (3, .running, 0x202) := by decide
theorem test_keyWait_designated : (ran (withRegs m2 [(1, 2)]) 0xF10A).map (fun t => (t.run, t.waitX, t.pc)) =
    some (.awaitingKey, 1, 0x202) := by decide
theorem test_poll_any : (next? (step (withKeys (waiting m1 1) [4]))).map (fun t => (t.getV 1, t.run, t.pc)) =
    some (4, .running, 0x200) := by decide
theorem test_poll_designated_other_key : (next? (step (withKeys (waiting (withRegs m2 [(1, 2)]) 1) [3]))).map
    (·.run) = some .awaitingKey := by decide
theorem test_timerGet : regsAfter (m1.setDelay 0x3C) 0xF207 [2] = some ([0x3C], 0x202) := by decide
theorem test_timerSetDelay : (ran (withRegs m1 [(1, 0x3C)]) 0xF115).map (fun t => (t.dt, t.st)) = some (0x3C, 0) := by
  decide
theorem test_timerSetSound : (ran (withRegs m1 [(1, 0x01)]) 0xF118).map (fun t => (t.dt, t.st, soundActive t,
    soundActive (tickTimers t))) = some (0, 1, true, false) := by decide
theorem test_tick : (tickTimers ((m1.setDelay 0).setSound 5)).dt = 0 ∧ (tickTimers ((m1.setDelay 0).setSound 5)).st = 4 := by
  decide
theorem test_quit_waiting : (quit (waiting m1 1)).run = .stopped := by decide
theorem test_read_buffer_clears_redraw : (readBuffer (m1.show Screen.blank)).2.redraw = false := by decide

/-! ## Witnesses: the hypotheses of each obligation are met -/

/-- A state that is not the reset state, at the edges of the invariant's ranges. -/
def edge : State :=
  { m1 with
    v := Vector.replicate 16 0xFF, index := 0xFFF, pc := 0xFFE, sp := 16, stack := Vector.replicate 16 0x1000,
    mem := ⟨[(0xFFF, 0xE0)]⟩, screen := ⟨[⟨0, 0⟩, ⟨63, 31⟩]⟩, keys := 0x8001, draws := 7 }

/-- A state waiting for a key. -/
def waitingEdge : State := { edge with run := .awaitingKey, waitX := 15, pc := 0x1000 }

/-- A waiting state of the other mode, on a legal key. -/
def waitingDesignated : State := waiting (withRegs m2 [(1, 0xF)]) 1

theorem edge_inv : edge.Inv where
  cfg_wf := by decide
  index_le := by decide
  pc_le := by decide
  stack_slot := by decide
  mem_wf := by decide
  screen_wf := by decide
  fault_run := by decide
  fault_wf := by simp [edge, m1, State.reset, State.fresh]
  wait_key := by decide

theorem witness_BootPlacesFontAndRom :
    (List.replicate 3584 (0xAB : Byte)).length ≤ 3584 ∧ ((0x04F : Nat) < 0x050) ∧
    ((0x0A0 : Nat) ≤ 0x0A0 ∧ (0x0A0 : Nat) < 0x200) ∧ 0x200 + (List.replicate 3584 (0xAB : Byte)).length ≤ 4096 := by
  rw [List.length_replicate]; decide

theorem witness_LoadCopiesOrRecordsLoadError :
    (0xFFF : Word).toNat + [(1 : Byte)].length ≤ 4096 ∧ 4096 < (0xFFF : Word).toNat + [(1 : Byte), 2].length := by decide

theorem witness_MemoryAccessContract : (0xFFF : Nat) < 0x1000 ∧ (0xFFF : Nat) ≤ 0xFFF ∧ (0x300 : Nat) ≠ 0x301 := by decide

theorem witness_MemoryAndScreenFormsAreCanonical :
    (edge.mem.wf ∧ (0xFFF : Nat) ≤ 0xFFF) ∧ (∀ a : Nat, edge.mem.read a = (edge.mem.write 0x300 0).read a) ∧
    (edge.mem.write 0x300 0).wf ∧ edge.screen.wf edge.cfg ∧ (63 < edge.cfg.width ∧ 31 < edge.cfg.height) ∧
    (∀ p : Pixel, edge.screen.getPixel p = waitingEdge.screen.getPixel p) :=
  ⟨by decide, fun _ => rfl, by decide, by decide, by decide, fun _ => rfl⟩

theorem witness_ScreenBufferOperations : (⟨3, 4⟩ : Pixel) ≠ ⟨4, 3⟩ := by decide

theorem witness_DecodeOfEncodeIsIdentity :
    (Instr.subReverse 0xF 0xF).wellFormed .conventional = true ∧ (Instr.syscall 0x0E1).wellFormed .table = true ∧
    (Instr.draw 0xF 0xF 0xF).wellFormed .table = true := by decide

theorem witness_EncodeOfDecodeIsIdentityUpToIgnoredBits :
    decode .table 0x5ABF = .ok (.skipEqReg 0xA 0xB) ∧ decode .conventional 0x9FFF = .ok (.skipNeqReg 0xF 0xF) ∧
    decode .conventional 0x8007 = .ok (.subReverse 0 0) := by decide

theorem witness_DecodeTableAsWritten :
    ((0x0E1 : Addr) ≠ 0x0E0 ∧ (0x0E1 : Addr) ≠ 0x0EE) ∧ (0x8 : Nibble).toNat ∈ [0x8, 0x9, 0xA, 0xB, 0xC, 0xD, 0xF] ∧
    (0xF : Nibble).toNat ∈ [0x8, 0x9, 0xA, 0xB, 0xC, 0xD, 0xF] ∧
    ((0x9F : Byte).toNat ≠ 0x9E ∧ (0x9F : Byte).toNat ≠ 0xA1) := by decide

theorem witness_DecodeOfParameterAndMiscFamilies :
    (0x00 : Byte).toNat ∉ [0x07, 0x0A, 0x15, 0x18, 0x1E, 0x29, 0x33, 0x55, 0x65] ∧
    (0x66 : Byte).toNat ∉ [0x07, 0x0A, 0x15, 0x18, 0x1E, 0x29, 0x33, 0x55, 0x65] := by decide

/-- The word 00E0 in the last two bytes of memory. -/
theorem witness_StepRunsDecodedInstruction :
    (edge.run = .running ∧ edge.pc.toNat % 2 = 0 ∧ edge.pc.toNat ≤ 0xFFE ∧
      decode edge.cfg.alu8Map (BitVec.ofNat 16
        ((edge.mem.read edge.pc.toNat).toNat * 256 + (edge.mem.read (edge.pc.toNat + 1)).toNat)) = .ok .clear) ∧
    (waitingDesignated.pc.toNat % 2 = 0 ∧ waitingDesignated.pc.toNat ≤ 0xFFE ∧ 0xFF65 < 65536 ∧
      decode waitingDesignated.cfg.alu8Map (BitVec.ofNat 16 0xFF65) = .ok (.regLoad 0xF)) := by decide

theorem witness_StepTakesFetchStageFaults :
    ((m1.setPc 0xFFF).run = .running ∧ (m1.setPc 0xFFF).pc.toNat % 2 = 1) ∧
    ((m1.setPc 0x1000).run = .running ∧ (m1.setPc 0x1000).pc.toNat % 2 = 0 ∧ 0xFFE < (m1.setPc 0x1000).pc.toNat) ∧
    ((withBytes (m1.setPc 0xFFE) 0xFFE [0xF0]).run = .running ∧ (m1.setPc 0xFFE).pc.toNat % 2 = 0 ∧
      (m1.setPc 0xFFE).pc.toNat ≤ 0xFFE ∧ (0xF000 : Word).toNat =
        ((withBytes (m1.setPc 0xFFE) 0xFFE [0xF0]).mem.read 0xFFE).toNat * 256 +
          ((withBytes (m1.setPc 0xFFE) 0xFFE [0xF0]).mem.read (0xFFE + 1)).toNat ∧
      decode m1.cfg.alu8Map 0xF000 = .error (.miscFunction 0x00)) := by decide

/-- A fault of the fetch stage without a word, one with a word, one of execution. -/
theorem witness_FaultsArePreciseAndRecorded :
    (∃ t, (m1.setPc 0x1000).run = .running ∧ step (m1.setPc 0x1000) = .next t ∧ t.run = .faulted) ∧
    (∃ t, (m1.withFetchWord 16 0xF000).run = .running ∧ step (m1.withFetchWord 16 0xF000) = .next t ∧ t.run = .faulted) ∧
    (∃ t, (m1.withFetchWord 16 0x00EE).run = .running ∧ step (m1.withFetchWord 16 0x00EE) = .next t ∧ t.run = .faulted) :=
  ⟨⟨_, rfl, rfl, rfl⟩, ⟨_, rfl, rfl, rfl⟩, ⟨_, rfl, rfl, rfl⟩⟩

theorem witness_EndedRunsStayEnded :
    (m1.raise (.misaligned 0x201)).run = .faulted ∧ (quit m1).run = .stopped := by decide

/-- Each clause: no key; the lowest key 0; the highest key alone; a designated key held, and not held. -/
theorem witness_KeyWaitPollResult :
    (waitingEdge.run = .awaitingKey ∧ waitingEdge.cfg.keyWaitMode = .anyStore ∧ waitingEdge.keys.getLsbD 0 = true ∧
      ∀ j : Key, j < 0 → waitingEdge.keys.getLsbD j.val = false) ∧
    ((waiting m1 1).run = .awaitingKey ∧ (waiting m1 1).keys = 0) ∧
    ((withKeys m1 [15]).keys.getLsbD 15 = true ∧ ∀ j : Key, j < 15 → (withKeys m1 [15]).keys.getLsbD j.val = false) ∧
    (waitingDesignated.run = .awaitingKey ∧ waitingDesignated.cfg.keyWaitMode = .designatedVx ∧
      waitingDesignated.keys.getLsbD (waitingDesignated.getV waitingDesignated.waitX).toNat = false) ∧
    ((withKeys waitingDesignated [15]).run = .awaitingKey ∧
      (withKeys waitingDesignated [15]).keys.getLsbD
        ((withKeys waitingDesignated [15]).getV (withKeys waitingDesignated [15]).waitX).toNat = true) := by decide

theorem witness_InvariantHoldsAtReset : (Config.mk 1 1 defaultFont .table .designatedVx).wf := by decide

theorem witness_EveryStepKeepsInvariant : edge.Inv ∧ ∃ t, step edge = .next t := ⟨edge_inv, _, rfl⟩

set_option maxRecDepth 4000 in
theorem witness_ReachableStatesMeetInvariant : ∃ s, Reachable s ∧ s.pc = 0x202 :=
  ⟨_, .call .step (boot m1.cfg []) _ (.boot _ _ (by decide)) rfl, rfl⟩

theorem witness_IndexIsMaskedOnEveryWrite :
    (∃ t, exec (.indexAdd 0) edge = .next t ∧ t.index ≠ edge.index) ∧ Reachable (boot m1.cfg [0xAF, 0xFF]) :=
  ⟨⟨_, rfl, by decide⟩, .boot _ _ (by decide)⟩

theorem witness_IndexAndStackWriters :
    (∃ t, HostCall.step.after (m1.withFetchWord 16 0xAFFF) = .next t ∧
      t.index ≠ (m1.withFetchWord 16 0xAFFF).index) ∧
    (∃ t, HostCall.step.after (m1.withFetchWord 16 0x2300) = .next t ∧
      ¬ (Unchanged (m1.withFetchWord 16 0x2300) t .sp ∧ Unchanged (m1.withFetchWord 16 0x2300) t .stack)) ∧
    (∃ t, HostCall.step.after ((atDepth m1 16 0x202).withFetchWord 16 0x00EE) = .next t ∧
      ¬ (Unchanged ((atDepth m1 16 0x202).withFetchWord 16 0x00EE) t .sp ∧
        Unchanged ((atDepth m1 16 0x202).withFetchWord 16 0x00EE) t .stack)) :=
  ⟨⟨_, rfl, by decide⟩, ⟨_, rfl, fun h => absurd (congrArg Fin.val h.1) (by decide)⟩,
    ⟨_, rfl, fun h => absurd (congrArg Fin.val h.1) (by decide)⟩⟩

theorem witness_ScreenWrittenOnlyByClearAndDraw :
    ∃ t, HostCall.step.after edge = .next t ∧ ¬ Unchanged edge t .screen :=
  ⟨_, rfl, fun h => absurd (h ⟨63, 31⟩) (by decide)⟩

theorem witness_KeysWrittenOnlyByHost :
    ∃ t, (HostCall.setKey 15).after m1 = .next t ∧ t.keys ≠ m1.keys := ⟨_, rfl, by decide⟩

theorem witness_TimersChangeOnlyByTicksAndSetters :
    (∃ t, HostCall.tickTimers.after ((m1.setDelay 1).setSound 255) = .next t ∧
      t.dt ≠ ((m1.setDelay 1).setSound 255).dt ∧ t.st ≠ ((m1.setDelay 1).setSound 255).st) ∧
    (∃ t, HostCall.step.after ((withRegs m1 [(1, 0x3C)]).withFetchWord 16 0xF115) = .next t ∧
      t.dt ≠ ((withRegs m1 [(1, 0x3C)]).withFetchWord 16 0xF115).dt) ∧
    (∃ t, HostCall.step.after ((withRegs m1 [(1, 0x3C)]).withFetchWord 16 0xF118) = .next t ∧
      t.st ≠ ((withRegs m1 [(1, 0x3C)]).withFetchWord 16 0xF118).st) :=
  ⟨⟨_, rfl, by decide, by decide⟩, ⟨_, rfl, by decide⟩, ⟨_, rfl, by decide⟩⟩

/-- A BCD_STORE at the top of memory, and the last byte of a full REG_DUMP. -/
theorem witness_MemoryWrittenOnlyByStores :
    (∃ t, HostCall.step.after ((withRegs (atIndex m1 0xFFD) [(3, 123)]).withFetchWord 16 0xF333) = .next t ∧
      t.mem.read 0xFFF ≠ ((withRegs (atIndex m1 0xFFD) [(3, 123)]).withFetchWord 16 0xF333).mem.read 0xFFF) ∧
    (∃ t, HostCall.step.after ((withRegs (atIndex m1 0xFF0) [(15, 15)]).withFetchWord 16 0xFF55) = .next t ∧
      t.mem.read 0xFFF ≠ ((withRegs (atIndex m1 0xFF0) [(15, 15)]).withFetchWord 16 0xFF55).mem.read 0xFFF) :=
  ⟨⟨_, rfl, by decide⟩, ⟨_, rfl, by decide⟩⟩

theorem witness_FlagRegisterWriters :
    (∃ t, exec (.addReg 0 1) edge = .next t ∧ t.getV 15 ≠ edge.getV 15) ∧
    (∃ t, exec (.loadImm 15 3) edge = .next t ∧ t.getV 15 ≠ edge.getV 15) ∧
    (∃ t, exec (.keyWait 15) edge = .next t ∧ t.getV 15 ≠ edge.getV 15) :=
  ⟨⟨_, rfl, by decide⟩, ⟨_, rfl, by decide⟩, ⟨_, rfl, by decide⟩⟩

theorem witness_AwaitingKeyEnteredOnlyByKeyWait :
    (∃ t, HostCall.step.after (m1.withFetchWord 16 0xF10A) = .next t ∧
      (m1.withFetchWord 16 0xF10A).run ≠ .awaitingKey ∧ t.run = .awaitingKey) ∧
    (∃ t, HostCall.step.after waitingEdge = .next t ∧ waitingEdge.run = .awaitingKey ∧ t.run ≠ .awaitingKey) ∧
    (∃ t, HostCall.quit.after waitingEdge = .next t ∧ t.run ≠ .awaitingKey) :=
  ⟨⟨_, rfl, by decide, by decide⟩, ⟨_, rfl, by decide, by decide⟩, ⟨_, rfl, by decide⟩⟩

theorem witness_UnreadStateDoesNotInterfere :
    ∃ s' t t', s' = { edge with st := s'.st, redraw := s'.redraw, fault := s'.fault, events := s'.events } ∧
      s'.st ≠ edge.st ∧ step edge = .next t ∧ step s' = .next t' :=
  ⟨edge.setSound 9, _, _, rfl, by decide, rfl, rfl⟩

/-- Both sides of the flag's boundary. -/
theorem witness_AddRegResult :
    255 < ((withRegs m1 [(0, 0xFF), (1, 0x01)]).getV 0).toNat + ((withRegs m1 [(0, 0xFF), (1, 0x01)]).getV 1).toNat ∧
    ((withRegs m1 [(0, 0xFE), (1, 0x01)]).getV 0).toNat + ((withRegs m1 [(0, 0xFE), (1, 0x01)]).getV 1).toNat ≤ 255 ∧
    (0 : Reg) ≠ 15 := by decide

theorem witness_SubRegResult :
    ((withRegs m1 [(0, 5), (1, 5)]).getV 1).toNat ≤ ((withRegs m1 [(0, 5), (1, 5)]).getV 0).toNat ∧
    ((withRegs m1 [(0, 4), (1, 5)]).getV 0).toNat < ((withRegs m1 [(0, 4), (1, 5)]).getV 1).toNat ∧
    (0 : Reg) ≠ 15 := by decide

theorem witness_SubReverseResult :
    ((withRegs m1 [(0, 5), (1, 5)]).getV 0).toNat ≤ ((withRegs m1 [(0, 5), (1, 5)]).getV 1).toNat ∧
    ((withRegs m1 [(0, 5), (1, 4)]).getV 1).toNat < ((withRegs m1 [(0, 5), (1, 4)]).getV 0).toNat ∧
    (14 : Reg) ≠ 15 := by decide

theorem witness_ShiftResults : (0 : Reg) ≠ 15 := by decide

/-- A skip whose condition holds and one whose does not. -/
theorem witness_CompareSkipResults :
    edge.getV 3 = 0xFF ∧ edge.getV 3 ≠ 0xFE ∧ edge.getV 1 = edge.getV 2 ∧
    (withRegs m1 [(1, 7)]).getV 1 ≠ (withRegs m1 [(1, 7)]).getV 2 := by decide

theorem witness_JumpResult : m1.run = .running ∧ (0xFFF : Addr).toNat % 2 = 1 := by decide

theorem witness_CallResult : (atDepth m1 15 0x202).sp.val < 16 ∧ (atDepth m1 16 0x202).sp.val = 16 := by decide

theorem witness_ReturnResult :
    (15 < 16 ∧ (atDepth m1 16 0x1000).sp.val = 15 + 1) ∧ (atDepth m1 1 0x1000).sp.val = 0 + 1 ∧ m1.sp.val = 0 := by decide

theorem witness_CallThenReturnRestores :
    ∃ t, (atDepth m1 15 0x202).sp.val < 16 ∧ exec (.call 0x300) (atDepth m1 15 0x202) = .next t ∧
      t.sp = t.sp ∧ (∀ j : Fin 16, t.stack[j] = t.stack[j]) := ⟨_, by decide, rfl, rfl, fun _ => rfl⟩

/-- The last I that fits and the first that does not. -/
theorem witness_BcdStoreResult : (atIndex m1 0xFFD).ea 2 ≤ 0xFFF ∧ 0xFFF < (atIndex m1 0xFFE).ea 2 := by decide

theorem witness_RegDumpResult :
    (atIndex m1 0xFF0).ea (15 : Reg).val ≤ 0xFFF ∧ 0xFFF < (atIndex m1 0xFF1).ea (15 : Reg).val ∧ (15 : Reg) ≤ 15 := by
  decide

theorem witness_RegLoadResult :
    (atIndex m1 0xFFF).ea (0 : Reg).val ≤ 0xFFF ∧ 0xFFF < (atIndex m1 0xFFF).ea (1 : Reg).val ∧ (0 : Reg) ≤ 0 ∧
    (0 : Reg) < 1 := by decide

theorem witness_DumpThenLoadRestores :
    ∃ t, (atIndex m1 0xFF0).ea (15 : Reg).val ≤ 0xFFF ∧ exec (.regDump 15) (atIndex m1 0xFF0) = .next t ∧
      t.index = t.index ∧ ∀ a : Nat, t.mem.read a = t.mem.read a := ⟨_, by decide, rfl, rfl, fun _ => rfl⟩

/-- Program P6 of the spec: V0 and V1 at 0x208. -/
theorem witness_DumpedBytesAreFetched :
    ∃ t, (atIndex (withRegs m1 [(0, 0x12), (1, 0x08)]) 0x208).ea (1 : Reg).val ≤ 0xFFF ∧
      exec (.regDump 1) (atIndex (withRegs m1 [(0, 0x12), (1, 0x08)]) 0x208) = .next t ∧ (1 : Reg) ≤ 1 ∧
      (1 : Reg).val = (0 : Reg).val + 1 ∧ (t.setPc 0x208).mem = t.mem ∧
      (t.setPc 0x208).pc.toNat = (atIndex (withRegs m1 [(0, 0x12), (1, 0x08)]) 0x208).ea (0 : Reg).val :=
  ⟨_, by decide, rfl, by decide, by decide, rfl, rfl⟩

theorem witness_DrawResult :
    (0 : Nibble).toNat = 0 ∧ (atIndex m1 0xFFD).ea ((3 : Nibble).toNat - 1) ≤ 0xFFF ∧
    ((4 : Nibble).toNat ≠ 0 ∧ 0xFFF < (atIndex m1 0xFFD).ea ((4 : Nibble).toNat - 1)) := by decide

/-- A screen of exactly 8×15, and a sprite of full height. -/
theorem witness_DrawCollisionOnWideScreens :
    ∃ s t, 8 ≤ s.cfg.width ∧ 15 ≤ s.cfg.height ∧ s.ea ((15 : Nibble).toNat - 1) ≤ 0xFFF ∧
      exec (.draw 0 1 15) s = .next t :=
  ⟨{ m1 with cfg := { m1.cfg with width := 8, height := 15 } }, _, by decide, by decide, by decide, rfl⟩

/-- The other disjunct: x = F with VF 0 before, and 0 after the first draw, which has no collision. -/
theorem witness_DrawTwiceRestoresScreen_flag_origin :
    ∃ t, (withBytes (atIndex m1 0x300) 0x300 [0xF0]).ea ((1 : Nibble).toNat - 1) ≤ 0xFFF ∧
      exec (.draw 15 1 1) (withBytes (atIndex m1 0x300) 0x300 [0xF0]) = .next t ∧
      t.getV 15 = (withBytes (atIndex m1 0x300) 0x300 [0xF0]).getV 15 := ⟨_, by decide, rfl, by decide⟩

/-- S12: glyph 0's first row; the first draw has no collision and the sprite has a set bit. -/
theorem witness_DrawTwiceRestoresScreen :
    ∃ t, (0 : Reg) ≠ 15 ∧ (1 : Reg) ≠ 15 ∧ (withBytes (atIndex m1 0x300) 0x300 [0xF0]).ea ((1 : Nibble).toNat - 1) ≤ 0xFFF ∧
      exec (.draw 0 1 1) (withBytes (atIndex m1 0x300) 0x300 [0xF0]) = .next t ∧ t.getV 15 = 0 ∧
      8 ≤ m1.cfg.width ∧ 15 ≤ m1.cfg.height ∧ 0 < 8 * (1 : Nibble).toNat ∧
      spriteBit (withBytes (atIndex m1 0x300) 0x300 [0xF0]) 0 = true :=
  ⟨_, by decide, by decide, by decide, rfl, by decide, by decide, by decide, by decide, by decide⟩

/-- Key number 0xF, held and not held, and 0x10. -/
theorem witness_KeySkipResults :
    ((withRegs m1 [(5, 0xF)]).getV 5).toNat ≤ 0xF ∧
    (withKeys (withRegs m1 [(5, 0xF)]) [15]).keys.getLsbD ((withRegs m1 [(5, 0xF)]).getV 5).toNat = true ∧
    (withRegs m1 [(5, 0xF)]).keys.getLsbD ((withRegs m1 [(5, 0xF)]).getV 5).toNat = false ∧
    0xF < ((withRegs m1 [(5, 0x10)]).getV 5).toNat := by decide

theorem witness_KeyWaitResult :
    (m1.cfg.keyWaitMode = .anyStore ∧ m1.keys = 0) ∧
    (edge.cfg.keyWaitMode = .anyStore ∧ edge.keys.getLsbD (0 : Key).val = true ∧
      ∀ j : Key, j < 0 → edge.keys.getLsbD j.val = false) ∧
    (m2.cfg.keyWaitMode = .designatedVx ∧ ((withRegs m2 [(1, 0xF)]).getV 1).toNat ≤ 0xF ∧
      (withKeys m2 [15]).keys.getLsbD 0xF = true ∧ m2.keys.getLsbD 0xF = false) ∧
    0xF < ((withRegs m2 [(1, 0x10)]).getV 1).toNat := by decide

theorem witness_TicksCountTimersDown : m1.run = .running ∧ waitingEdge.run = .awaitingKey := by decide

theorem witness_HostInputResults :
    m1.run = .running ∧ waitingEdge.run = .awaitingKey ∧ (m1.raise (.misaligned 0x201)).run = .faulted ∧
    (quit m1).run = .stopped := by decide

theorem witness_HostReadResults : 31 < m1.cfg.height ∧ 63 < m1.cfg.width := by decide

end Sys2Proof.Tests
end

section
/-! SUPPORT. The I register (00_scope.md R12): every write of it is masked to 12 bits, so it stays within 12 bits over every
run. The instructions that can write I are read off `footprint`; everything else about a step or a call comes from the
footprint lemmas. -/

namespace Sys2Proof.Machine

/-! ## 12-bit words -/

theorem toNat_setIndex_le (s : State) (a : Word) : (s.setIndex a).index.toNat ≤ 0xFFF := by
  rw [setIndex_index, BitVec.toNat_and]
  exact Nat.and_le_right

/-- A word of at most 12 bits is its own masked value. -/
theorem and_mask12_of_le (a : Word) (h : a.toNat ≤ 0xFFF) : a &&& 0xFFF = a := by
  apply BitVec.eq_of_toNat_eq
  calc (a &&& 0xFFF).toNat = a.toNat &&& (2 ^ 12 - 1) := BitVec.toNat_and ..
    _ = a.toNat % 2 ^ 12 := Nat.and_two_pow_sub_one_eq_mod ..
    _ = a.toNat := Nat.mod_eq_of_lt (by omega)

theorem and_topNibble_of_le (a : Word) (h : a.toNat ≤ 0xFFF) : a &&& 0xF000 = 0 := by
  calc a &&& 0xF000 = (a &&& 0xFFF) &&& 0xF000 := by rw [and_mask12_of_le a h]
    _ = a &&& (0xFFF &&& 0xF000) := BitVec.and_assoc ..
    _ = 0 := BitVec.and_zero

/-! ## Instructions and host calls -/

/-- The instructions that can write I: LOAD_INDEX, INDEX_ADD and FONT_ADDR (R34). -/
theorem index_mem_footprint (i : Instr) (h : .index ∈ footprint i) :
    (∃ nnn, i = .loadIndex nnn) ∨ (∃ x, i = .indexAdd x) ∨ ∃ x, i = .fontAddr x := by
  cases i <;> simp_all [footprint]

/-- An instruction leaves I alone or writes it masked. -/
theorem exec_index (i : Instr) (s t : State) (h : exec i s = .next t) :
    t.index = s.index ∨ t.index.toNat ≤ 0xFFF := by
  by_cases hi : .index ∈ footprint i
  · right
    obtain ⟨_, rfl⟩ | ⟨_, rfl⟩ | ⟨_, rfl⟩ := index_mem_footprint i hi <;> cases h <;> exact toNat_setIndex_le ..
  · left
    obtain hf | ⟨r, rfl, _⟩ := exec_footprint i s t h
    · exact hf .index hi
    · exact raise_index s r

/-- So does every host call: only a step that completes an instruction can change I. -/
theorem after_index (c : HostCall) (s t : State) (h : c.after s = .next t) :
    t.index = s.index ∨ t.index.toNat ≤ 0xFFF := by
  by_cases hc : c = .step
  · subst hc
    by_cases hu : Unchanged s t .index
    · exact .inl hu
    · obtain ⟨_, i, _, hx, _⟩ := step_changes s t .index h hu (by simp) (by simp) (by simp)
      exact exec_index i s t hx
  · exact .inl ((call_footprint c s t h hc).1 .index (by simp))

/-! ## Runs -/

@[simp] theorem load_index (data : List Byte) (offset : Word) (s : State) :
    (load data offset s).index = s.index := by
  unfold load; split <;> simp

theorem boot_index (cfg : Config) (rom : List Byte) : (boot cfg rom).index = 0 := by
  simp [boot, loadFont, State.fresh]

theorem Reachable.index_le {s : State} (hs : Reachable s) : s.index.toNat ≤ 0xFFF := by
  induction hs with
  | boot cfg rom _ => simp [boot_index]
  | call c s t _ ht ih =>
    obtain h | h := after_index c s t ht
    · rwa [h]
    · exact h

/-- Settles O22 (R12): the write of I is `setIndex`, which masks; instructions go through it or leave I alone, and the
bound is kept from boot by every host call. -/
theorem indexIsMaskedOnEveryWrite : Obligations.IndexIsMaskedOnEveryWrite := by
  refine ⟨setIndex_index, fun i s t h hne => ?_, fun s hs => and_topNibble_of_le s.index hs.index_le⟩
  exact (exec_index i s t h).resolve_left hne

end Sys2Proof.Machine
end

section
/-! SUPPORT. The two status reads of the host interface (10_state.md R66, R68). -/

namespace Sys2Proof.Machine

/-- Settles O59 (R66, R68): each read answers one component of the state, and its call goes on from the state it read. -/
theorem statusReadsChangeNothing : Obligations.StatusReadsChangeNothing := fun _ => ⟨rfl, rfl, rfl, rfl⟩

end Sys2Proof.Machine
end

section
/-! SUPPORT. The decoder on packed words (30_encoding.md R115 to R117, R120): one equation for each row of the decode table,
then the rows as the spec writes them, with the word a sum. -/

namespace Sys2Proof

/-! ## Fixed rows and rows with an address (R115, R116) -/

theorem decode_clear (m : Alu8Map) : decode m 0x00E0 = .ok .clear := rfl

theorem decode_ret (m : Alu8Map) : decode m 0x00EE = .ok .ret := rfl

theorem decode_syscall (m : Alu8Map) (nnn : Addr) (hclear : nnn ≠ 0x0E0) (hret : nnn ≠ 0x0EE) :
    decode m (packNNN 0x0 nnn) = .ok (.syscall nnn) := by
  rw [decode, op_packNNN, nnn_packNNN]
  exact (if_neg hclear).trans (if_neg hret)

theorem decode_jump (m : Alu8Map) (nnn : Addr) : decode m (packNNN 0x1 nnn) = .ok (.jump nnn) := by
  simp [decode]

theorem decode_call (m : Alu8Map) (nnn : Addr) : decode m (packNNN 0x2 nnn) = .ok (.call nnn) := by
  simp [decode]

theorem decode_loadIndex (m : Alu8Map) (nnn : Addr) : decode m (packNNN 0xA nnn) = .ok (.loadIndex nnn) := by
  simp [decode]

theorem decode_jumpIndexed (m : Alu8Map) (nnn : Addr) : decode m (packNNN 0xB nnn) = .ok (.jumpIndexed nnn) := by
  simp [decode]

/-! ## Rows with a register and a byte, and with two registers (R116) -/

theorem decode_skipEqImm (m : Alu8Map) (x : Reg) (kk : Byte) :
    decode m (packXKK 0x3 x kk) = .ok (.skipEqImm x kk) := by simp [decode]

theorem decode_skipNeqImm (m : Alu8Map) (x : Reg) (kk : Byte) :
    decode m (packXKK 0x4 x kk) = .ok (.skipNeqImm x kk) := by simp [decode]

theorem decode_loadImm (m : Alu8Map) (x : Reg) (kk : Byte) :
    decode m (packXKK 0x6 x kk) = .ok (.loadImm x kk) := by simp [decode]

theorem decode_addImm (m : Alu8Map) (x : Reg) (kk : Byte) :
    decode m (packXKK 0x7 x kk) = .ok (.addImm x kk) := by simp [decode]

theorem decode_random (m : Alu8Map) (x : Reg) (kk : Byte) :
    decode m (packXKK 0xC x kk) = .ok (.random x kk) := by simp [decode]

/-- R123: the low nibble is ignored. -/
theorem decode_skipEqReg (m : Alu8Map) (x y : Reg) (n : Nibble) :
    decode m (packXYN 0x5 x y n) = .ok (.skipEqReg x y) := by simp [decode]

/-- R123: the low nibble is ignored. -/
theorem decode_skipNeqReg (m : Alu8Map) (x y : Reg) (n : Nibble) :
    decode m (packXYN 0x9 x y n) = .ok (.skipNeqReg x y) := by simp [decode]

theorem decode_draw (m : Alu8Map) (x y : Reg) (n : Nibble) :
    decode m (packXYN 0xD x y n) = .ok (.draw x y n) := by simp [decode]

/-! ## The families with a function field (R117, R120) -/

/-- The 8 family goes by its low nibble. -/
theorem decode_alu (m : Alu8Map) (x y : Reg) (n : Nibble) :
    decode m (packXYN 0x8 x y n) = decodeAlu m x y n := by simp [decode]

/-- The E family goes by its low byte. -/
theorem decode_key (m : Alu8Map) (x : Reg) (kk : Byte) :
    decode m (packXKK 0xE x kk) = decodeKey x kk := by simp [decode]

/-- The function nibbles without an instruction under either map. -/
theorem decodeAlu_error (m : Alu8Map) (x y : Reg) (n : Nibble)
    (hn : n.toNat ∈ [0x8, 0x9, 0xA, 0xB, 0xC, 0xD, 0xF]) :
    decodeAlu m x y n = .error (.aluFunction n) := by
  simp only [List.mem_cons, List.not_mem_nil, or_false] at hn
  obtain h | h | h | h | h | h | h := hn <;> simp [decodeAlu, h]

theorem decodeKey_error (x : Reg) (kk : Byte) (hkey : kk.toNat ≠ 0x9E) (hnot : kk.toNat ≠ 0xA1) :
    decodeKey x kk = .error (.keyFunction kk) := by
  have h9E : kk ≠ 0x9E := fun h => hkey (congrArg BitVec.toNat h)
  have hA1 : kk ≠ 0xA1 := fun h => hnot (congrArg BitVec.toNat h)
  rw [decodeKey, if_neg h9E, if_neg hA1]

/-! ## Words written as sums -/

/-- Every word 0nnn but the two of CLEAR and RETURN (R115). -/
theorem decode_ofNat_syscall (m : Alu8Map) (nnn : Addr) (hclear : nnn ≠ 0x0E0) (hret : nnn ≠ 0x0EE) :
    decode m (BitVec.ofNat 16 nnn.toNat) = .ok (.syscall nnn) := by
  rw [← Nat.zero_add nnn.toNat, ofNat_packNNN 0x0 nnn 0 rfl, decode_syscall m nnn hclear hret]

/-- A word with a fixed low nibble in the 8 family decodes as that nibble says (R117). -/
theorem decode_ofNat_alu_fixed (m : Alu8Map) (x y : Reg) (n : Nibble) (a : Nat) (h : a = 0x8000 + n.toNat) :
    decode m (BitVec.ofNat 16 (a + 0x100 * x.val + 0x10 * y.val)) = decodeAlu m x y n := by
  rw [ofNat_packXYN_fixed 0x8 x y n a h, decode_alu]

/-- The low nibbles of the 8 family that name no instruction (R117). -/
theorem decode_ofNat_alu_error (m : Alu8Map) (x y : Reg) (n : Nibble)
    (hn : n.toNat ∈ [0x8, 0x9, 0xA, 0xB, 0xC, 0xD, 0xF]) :
    decode m (BitVec.ofNat 16 (0x8000 + 0x100 * x.val + 0x10 * y.val + n.toNat)) = .error (.aluFunction n) := by
  rw [ofNat_packXYN 0x8 x y n 0x8000 rfl, decode_alu, decodeAlu_error m x y n hn]

/-- A word with a fixed low byte in the E family decodes as that byte says (R120). -/
theorem decode_ofNat_key_fixed (m : Alu8Map) (x : Reg) (kk : Byte) (a : Nat) (h : a = 0xE000 + kk.toNat) :
    decode m (BitVec.ofNat 16 (a + 0x100 * x.val)) = decodeKey x kk := by
  rw [ofNat_packXKK_fixed 0xE x kk a h, decode_key]

/-- Every other low byte of the E family (R120). -/
theorem decode_ofNat_key_error (m : Alu8Map) (x : Reg) (kk : Byte) (hkey : kk.toNat ≠ 0x9E) (hnot : kk.toNat ≠ 0xA1) :
    decode m (BitVec.ofNat 16 (0xE000 + 0x100 * x.val + kk.toNat)) = .error (.keyFunction kk) := by
  rw [ofNat_packXKK 0xE x kk 0xE000 rfl, decode_key, decodeKey_error x kk hkey hnot]

/-- Settles O10 (R115, R116, R117, R120): each word is a packed word, and the decoder has one equation for each row. -/
theorem decodeTableAsWritten : Obligations.DecodeTableAsWritten := by
  intro m x y n kk nnn
  refine ⟨decode_clear m, decode_ret m, decode_ofNat_syscall m nnn,
    ?jump, ?call, ?skipEqImm, ?skipNeqImm, ?skipEqReg, ?loadImm, ?addImm, ?skipNeqReg, ?loadIndex, ?jumpIndexed,
    ?random, ?draw,
    decode_ofNat_alu_fixed m x y 0x0 _ rfl, decode_ofNat_alu_fixed m x y 0x1 _ rfl,
    decode_ofNat_alu_fixed m x y 0x2 _ rfl, decode_ofNat_alu_fixed m x y 0x3 _ rfl,
    decode_ofNat_alu_fixed m x y 0x4 _ rfl, decode_ofNat_alu_fixed m x y 0x5 _ rfl,
    decode_ofNat_alu_fixed m x y 0x6 _ rfl, fun hn => ⟨_, decode_ofNat_alu_error m x y n hn⟩,
    decode_ofNat_key_fixed m x 0x9E _ rfl, decode_ofNat_key_fixed m x 0xA1 _ rfl,
    fun hkey hnot => ⟨_, decode_ofNat_key_error m x kk hkey hnot⟩⟩
  case jump => rw [ofNat_packNNN 0x1 nnn 0x1000 rfl, decode_jump]
  case call => rw [ofNat_packNNN 0x2 nnn 0x2000 rfl, decode_call]
  case skipEqImm => rw [ofNat_packXKK 0x3 x kk 0x3000 rfl, decode_skipEqImm]
  case skipNeqImm => rw [ofNat_packXKK 0x4 x kk 0x4000 rfl, decode_skipNeqImm]
  case skipEqReg => rw [ofNat_packXYN 0x5 x y n 0x5000 rfl, decode_skipEqReg]
  case loadImm => rw [ofNat_packXKK 0x6 x kk 0x6000 rfl, decode_loadImm]
  case addImm => rw [ofNat_packXKK 0x7 x kk 0x7000 rfl, decode_addImm]
  case skipNeqReg => rw [ofNat_packXYN 0x9 x y n 0x9000 rfl, decode_skipNeqReg]
  case loadIndex => rw [ofNat_packNNN 0xA nnn 0xA000 rfl, decode_loadIndex]
  case jumpIndexed => rw [ofNat_packNNN 0xB nnn 0xB000 rfl, decode_jumpIndexed]
  case random => rw [ofNat_packXKK 0xC x kk 0xC000 rfl, decode_random]
  case draw => rw [ofNat_packXYN 0xD x y n 0xD000 rfl, decode_draw]

/-- Settles O7 (R127): the three words are the rows CLEAR, JUMP and LOAD_IMM of the table, packed with their operands. -/
theorem writtenOutWordsDecode : Obligations.WrittenOutWordsDecode := fun m =>
  ⟨decode_clear m, decode_jump m 0xABC, decode_loadImm m 0xA 0x07⟩

end Sys2Proof
end

section
/-! SUPPORT. The decoder and the encoder together (30_encoding.md R114, R118 to R125): the remaining rows of the decode
table, decode after encode, encode after decode, and the words that are no instruction. -/

namespace Sys2Proof

/-! ## The F family, and 8xy7 and 8xyE (R118, R119, R121) -/

/-- The F family goes by its low byte. -/
theorem decode_misc (m : Alu8Map) (x : Reg) (kk : Byte) :
    decode m (packXKK 0xF x kk) = decodeMisc x kk := by simp [decode]

/-- A word with a fixed low byte in the F family decodes as that byte says. -/
theorem decode_ofNat_misc_fixed (m : Alu8Map) (x : Reg) (kk : Byte) (a : Nat) (h : a = 0xF000 + kk.toNat) :
    decode m (BitVec.ofNat 16 (a + 0x100 * x.val)) = decodeMisc x kk := by
  rw [ofNat_packXKK_fixed 0xF x kk a h, decode_misc]

/-- SHIFT_LEFT has the function nibble its map gives it. -/
theorem decodeAlu_shiftLeftNibble (m : Alu8Map) (x y : Reg) :
    decodeAlu m x y (shiftLeftNibble m) = .ok (.shiftLeft x y) := by
  cases m <;> rfl

/-! ## Decode after encode -/

/-- The decoder reads a well-formed instruction from its word: each arm is one row of the decode table. -/
theorem decode_encode (m : Alu8Map) (i : Instr) (h : i.wellFormed m = true) : decode m (encode m i) = .ok i := by
  cases i with
  | clear => exact decode_clear m
  | ret => exact decode_ret m
  | syscall nnn =>
    obtain ⟨hclear, hret⟩ : nnn ≠ 0x0E0 ∧ nnn ≠ 0x0EE := by simpa [Instr.wellFormed] using h
    exact decode_syscall m nnn hclear hret
  | jump nnn => exact decode_jump m nnn
  | call nnn => exact decode_call m nnn
  | skipEqImm x kk => exact decode_skipEqImm m x kk
  | skipNeqImm x kk => exact decode_skipNeqImm m x kk
  | skipEqReg x y => exact decode_skipEqReg m x y 0x0
  | loadImm x kk => exact decode_loadImm m x kk
  | addImm x kk => exact decode_addImm m x kk
  | move x y => exact decode_alu m x y 0x0
  | or x y => exact decode_alu m x y 0x1
  | and x y => exact decode_alu m x y 0x2
  | xor x y => exact decode_alu m x y 0x3
  | addReg x y => exact decode_alu m x y 0x4
  | subReg x y => exact decode_alu m x y 0x5
  | shiftRight x y => exact decode_alu m x y 0x6
  | shiftLeft x y => exact (decode_alu m x y _).trans (decodeAlu_shiftLeftNibble m x y)
  | subReverse x y =>
    obtain rfl : m = .conventional := by simpa [Instr.wellFormed] using h
    exact decode_alu .conventional x y 0x7
  | skipNeqReg x y => exact decode_skipNeqReg m x y 0x0
  | loadIndex nnn => exact decode_loadIndex m nnn
  | jumpIndexed nnn => exact decode_jumpIndexed m nnn
  | random x kk => exact decode_random m x kk
  | draw x y n => exact decode_draw m x y n
  | skipIfKey x => exact decode_key m x 0x9E
  | skipIfNotKey x => exact decode_key m x 0xA1
  | timerGet x => exact decode_misc m x 0x07
  | keyWait x => exact decode_misc m x 0x0A
  | timerSetDelay x => exact decode_misc m x 0x15
  | timerSetSound x => exact decode_misc m x 0x18
  | indexAdd x => exact decode_misc m x 0x1E
  | fontAddr x => exact decode_misc m x 0x29
  | bcdStore x => exact decode_misc m x 0x33
  | regDump x => exact decode_misc m x 0x55
  | regLoad x => exact decode_misc m x 0x65

/-- The bytes of a word that decodes, high byte first (D1), decode to the same instruction. -/
theorem decodeBytes_high_low (m : Alu8Map) (w : Word) (i : Instr) (rest : List Byte) (h : decode m w = .ok i) :
    decodeBytes m (highByte w :: lowByte w :: rest) = .ok (i, rest) := by
  rw [decodeBytes, wordOfBytes_high_low, h]

/-- Settles O8 (R114, R125, D1): the word by the row of its instruction, the bytes because they make the word. -/
theorem decodeOfEncodeIsIdentity : Obligations.DecodeOfEncodeIsIdentity := fun m i h =>
  ⟨decode_encode m i h, fun rest => decodeBytes_high_low m _ i rest (decode_encode m i h)⟩

/-! ## Encode after decode -/

/-- A word with opcode nibble `op` is packed from its fields and `op`. -/
theorem packNNN_of_opField (w : Word) (op : Nibble) (h : (opField w).toNat = op.toNat) :
    packNNN op (nnnField w) = w := by
  rw [← BitVec.eq_of_toNat_eq h, packNNN_fields]

theorem packXKK_of_opField (w : Word) (op : Nibble) (h : (opField w).toNat = op.toNat) :
    packXKK op (xField w) (kkField w) = w := by
  rw [← BitVec.eq_of_toNat_eq h, packXKK_fields]

theorem packXYN_of_opField (w : Word) (op : Nibble) (h : (opField w).toNat = op.toNat) :
    packXYN op (xField w) (yField w) (nField w) = w := by
  rw [← BitVec.eq_of_toNat_eq h, packXYN_fields]

/-- A word with its low nibble cleared. -/
theorem toNat_packXYN_zero (w : Word) (op : Nibble) (h : (opField w).toNat = op.toNat) :
    (packXYN op (xField w) (yField w) 0x0).toNat = w.toNat - w.toNat % 16 := by
  rw [toNat_opField] at h
  have hzero : BitVec.toNat (0x0 : Nibble) = 0 := rfl
  rw [toNat_packXYN, val_xField, val_yField, ← h, hzero]
  omega

/-- What the decoder reads in the 8 family is well-formed and is encoded with the same fields. -/
theorem encode_of_decodeAlu (m : Alu8Map) (x y : Reg) (n : Nibble) (i : Instr) (h : decodeAlu m x y n = .ok i) :
    i.wellFormed m = true ∧ encode m i = packXYN 0x8 x y n := by
  obtain ⟨k, rfl⟩ : ∃ k : Fin 16, n = BitVec.ofFin k := ⟨n.toFin, rfl⟩
  cases m <;> fin_cases k <;> cases h <;> exact ⟨rfl, rfl⟩

/-- The same for the E family. -/
theorem encode_of_decodeKey (m : Alu8Map) (x : Reg) (kk : Byte) (i : Instr) (h : decodeKey x kk = .ok i) :
    i.wellFormed m = true ∧ encode m i = packXKK 0xE x kk := by
  unfold decodeKey at h
  split_ifs at h <;> cases h <;> subst kk <;> exact ⟨rfl, rfl⟩

/-- The same for the F family. -/
theorem encode_of_decodeMisc (m : Alu8Map) (x : Reg) (kk : Byte) (i : Instr) (h : decodeMisc x kk = .ok i) :
    i.wellFormed m = true ∧ encode m i = packXKK 0xF x kk := by
  unfold decodeMisc at h
  split_ifs at h <;> cases h <;> subst kk <;> exact ⟨rfl, rfl⟩

/-- Settles O9 (R114, R123): by the arms of the decoder; only 5xyd and 9xyd drop a field. -/
theorem encodeOfDecodeIsIdentityUpToIgnoredBits : Obligations.EncodeOfDecodeIsIdentityUpToIgnoredBits := by
  intro m w i h
  unfold decode at h
  split at h <;> rename_i hop
  case h_1 =>
    split_ifs at h with hclear hret <;> cases h
    · exact ⟨rfl, .inl (by rw [← packNNN_of_opField w 0x0 hop, hclear]; rfl)⟩
    · exact ⟨rfl, .inl (by rw [← packNNN_of_opField w 0x0 hop, hret]; rfl)⟩
    · exact ⟨by rw [Instr.wellFormed, Bool.and_eq_true]; exact ⟨decide_eq_true hclear, decide_eq_true hret⟩,
        .inl (packNNN_of_opField w 0x0 hop)⟩
  case h_2 => cases h; exact ⟨rfl, .inl (packNNN_of_opField w 0x1 hop)⟩
  case h_3 => cases h; exact ⟨rfl, .inl (packNNN_of_opField w 0x2 hop)⟩
  case h_4 => cases h; exact ⟨rfl, .inl (packXKK_of_opField w 0x3 hop)⟩
  case h_5 => cases h; exact ⟨rfl, .inl (packXKK_of_opField w 0x4 hop)⟩
  case h_6 =>
    cases h; exact ⟨rfl, .inr ⟨.inl (toNat_opField w ▸ hop), toNat_packXYN_zero w 0x5 hop⟩⟩
  case h_7 => cases h; exact ⟨rfl, .inl (packXKK_of_opField w 0x6 hop)⟩
  case h_8 => cases h; exact ⟨rfl, .inl (packXKK_of_opField w 0x7 hop)⟩
  case h_9 =>
    obtain ⟨hwf, he⟩ := encode_of_decodeAlu m _ _ _ i h
    exact ⟨hwf, .inl (he.trans (packXYN_of_opField w 0x8 hop))⟩
  case h_10 =>
    cases h; exact ⟨rfl, .inr ⟨.inr (toNat_opField w ▸ hop), toNat_packXYN_zero w 0x9 hop⟩⟩
  case h_11 => cases h; exact ⟨rfl, .inl (packNNN_of_opField w 0xA hop)⟩
  case h_12 => cases h; exact ⟨rfl, .inl (packNNN_of_opField w 0xB hop)⟩
  case h_13 => cases h; exact ⟨rfl, .inl (packXKK_of_opField w 0xC hop)⟩
  case h_14 => cases h; exact ⟨rfl, .inl (packXYN_of_opField w 0xD hop)⟩
  case h_15 =>
    obtain ⟨hwf, he⟩ := encode_of_decodeKey m _ _ i h
    exact ⟨hwf, .inl (he.trans (packXKK_of_opField w 0xE hop))⟩
  case h_16 =>
    have hF : (opField w).toNat = 0xF := by simp only [imp_false] at *; omega
    obtain ⟨hwf, he⟩ := encode_of_decodeMisc m _ _ i h
    exact ⟨hwf, .inl (he.trans (packXKK_of_opField w 0xF hF))⟩

/-! ## The words that are no instruction (R122) -/

theorem decodeAlu_fails_iff (m : Alu8Map) (x y : Reg) (n : Nibble) :
    (∃ r, decodeAlu m x y n = .error r) ↔
      n.toNat ∈ [0x8, 0x9, 0xA, 0xB, 0xC, 0xD, 0xF] ∨ (m = .table ∧ n.toNat = 0xE) := by
  unfold decodeAlu
  split <;> rename_i hn
  case h_8 | h_9 => cases m <;> simp [hn]
  case h_10 => simp only [imp_false] at *; simp; omega
  all_goals simp [hn]

theorem decodeKey_fails_iff (x : Reg) (kk : Byte) :
    (∃ r, decodeKey x kk = .error r) ↔ kk.toNat ∉ [0x9E, 0xA1] := by
  unfold decodeKey
  split_ifs <;> simp_all [BitVec.toNat_eq]

theorem decodeMisc_fails_iff (x : Reg) (kk : Byte) :
    (∃ r, decodeMisc x kk = .error r) ↔
      kk.toNat ∉ [0x07, 0x0A, 0x15, 0x18, 0x1E, 0x29, 0x33, 0x55, 0x65] := by
  unfold decodeMisc
  split_ifs <;> simp_all [BitVec.toNat_eq]

/-- Settles O12 (R122): only the families 8, E and F can fail, each on the function fields it does not assign. -/
theorem decodeFailsExactlyOnIllegalWords : Obligations.DecodeFailsExactlyOnIllegalWords := by
  intro m w
  unfold decode
  split <;> rename_i hop
  case h_9 => 
    rw [decodeAlu_fails_iff, toNat_nField]
    rw [toNat_opField] at hop
    simp [hop]
  case h_15 => 
    rw [decodeKey_fails_iff, toNat_kkField]
    rw [toNat_opField] at hop
    simp [hop]
  case h_16 => 
    rw [decodeMisc_fails_iff, toNat_kkField]
    have hF : w.toNat / 4096 = 0xF := by simp only [imp_false, toNat_opField] at *; omega
    simp [hF]
  case h_1 =>
    rw [toNat_opField] at hop
    split_ifs <;> simp [hop]
  all_goals rw [toNat_opField] at hop; simp [hop]

/-- Settles O11 (R118, R119, R121): each word is a packed word of the 8 family or of the F family. -/
theorem decodeOfParameterAndMiscFamilies : Obligations.DecodeOfParameterAndMiscFamilies := by
  intro m x y kk
  refine ⟨decode_ofNat_alu_fixed .table x y 0x7 _ rfl, ⟨_, decode_ofNat_alu_fixed .table x y 0xE _ rfl⟩,
    decode_ofNat_alu_fixed .conventional x y 0x7 _ rfl, decode_ofNat_alu_fixed .conventional x y 0xE _ rfl,
    decode_ofNat_misc_fixed m x 0x07 _ rfl, decode_ofNat_misc_fixed m x 0x0A _ rfl,
    decode_ofNat_misc_fixed m x 0x15 _ rfl, decode_ofNat_misc_fixed m x 0x18 _ rfl,
    decode_ofNat_misc_fixed m x 0x1E _ rfl, decode_ofNat_misc_fixed m x 0x29 _ rfl,
    decode_ofNat_misc_fixed m x 0x33 _ rfl, decode_ofNat_misc_fixed m x 0x55 _ rfl,
    decode_ofNat_misc_fixed m x 0x65 _ rfl, fun hkk => ?_⟩
  rw [ofNat_packXKK 0xF x kk 0xF000 rfl, decode_misc]
  exact (decodeMisc_fails_iff x kk).2 hkk

end Sys2Proof
end

section
/-! SUPPORT. Contents of memory and screen (20_memory.md R80 to R83, 43_display.md R260), their canonical forms, and what
the fresh machine and the boot loads leave (10_state.md R46, 70_reset_and_hazards.md R453 to R455). -/

namespace Sys2Proof.Machine

/-! ## Canonical forms -/

/-- Lists that rise by the same asymmetric relation and have the same members are the same list. -/
theorem eq_of_pairwise_of_mem_iff {α : Type} {r : α → α → Prop} (hr : ∀ a b, r a b → ¬ r b a) {l l' : List α}
    (hl : l.Pairwise r) (hl' : l'.Pairwise r) (h : ∀ a, a ∈ l ↔ a ∈ l') : l = l' := by
  have : Std.Irrefl r := ⟨fun a ha => hr a a ha ha⟩
  have : Std.Antisymm r := ⟨fun a b hab hba => absurd hba (hr a b hab)⟩
  exact hl.eq_of_mem_iff hl' h

/-- In canonical form the entries are the addresses that do not read as unlisted, with what they read as. -/
theorem mem_cells_iff (m : Memory) (hm : m.wf) (c : Host.Cell) :
    c ∈ m.cells ↔ m.read c.1 = c.2 ∧ c.2 ≠ Memory.unlisted := by
  obtain ⟨hrising, hlisted⟩ := hm
  constructor
  · exact fun hc => ⟨readCells_of_mem m.cells hrising c hc, (hlisted c hc).2⟩
  · rintro ⟨hread, hne⟩
    have hmem := mem_of_readCells m.cells c.1 (hread.trans_ne hne)
    rwa [show readCells c.1 m.cells = c.2 from hread] at hmem

theorem memory_ext (m m' : Memory) (hm : m.wf) (hm' : m'.wf) (h : ∀ a : Nat, m.read a = m'.read a) : m = m' := by
  have hcells : m.cells = m'.cells := by
    refine eq_of_pairwise_of_mem_iff (fun _ _ => lt_asymm) hm.1 hm'.1 fun c => ?_
    rw [mem_cells_iff m hm, mem_cells_iff m' hm', h]
  cases m; cases m'; exact congrArg Memory.mk hcells

theorem not_before_of_before (p q : Pixel) (h : p.Before q) : ¬ q.Before p := by
  unfold Pixel.Before at *; omega

theorem screen_ext (c : Config) (sc sc' : Screen) (h : sc.wf c) (h' : sc'.wf c)
    (hpix : ∀ p : Pixel, sc.getPixel p = sc'.getPixel p) : sc = sc' := by
  have hlit : sc.lit = sc'.lit := by
    refine eq_of_pairwise_of_mem_iff not_before_of_before h.1 h'.1 fun p => ?_
    simpa [Screen.getPixel] using hpix p
  cases sc; cases sc'; exact congrArg Screen.mk hlit

/-- Settles O5 (log entries 10 and 14): writes and toggles keep the forms, and a form is fixed by what it reads as. -/
theorem memoryAndScreenFormsAreCanonical : Obligations.MemoryAndScreenFormsAreCanonical :=
  ⟨fun m a b hm ha => write_wf m a b hm (Nat.lt_succ_of_le ha), memory_ext, toggle_wf, screen_ext⟩

/-! ## One access -/

/-- Settles O4 (R82): the two accesses by their bound, the contents by the law of one write. -/
theorem memoryAccessContract : Obligations.MemoryAccessContract := by
  refine fun m a b => ⟨fun h => ?_, fun h => ?_⟩
  · have hout : inMemory a = false := decide_eq_false (by omega)
    simp [Memory.get, Memory.set, hout]
  · exact ⟨(get_eq_some_iff m a _).2 ⟨h, rfl⟩, m.write a b, (set_eq_some_iff m _ a b).2 ⟨h, rfl⟩, read_write_self m a b,
      fun a' hne => read_write_ne m a a' b hne⟩

/-- Settles O6 (R260): `xor` is a toggle that answers the old pixel. -/
theorem screenBufferOperations : Obligations.ScreenBufferOperations :=
  ⟨getPixel_blank, fun sc p q => ⟨rfl, (getPixel_toggle sc p p).trans (if_pos rfl),
    fun hne => (getPixel_toggle sc p q).trans (if_neg hne)⟩⟩

/-! ## The fresh machine -/

@[simp] theorem getV_fresh (cfg : Config) (j : Reg) : (State.fresh cfg).getV j = 0 := by
  simp [State.getV, State.fresh]

/-- Settles O1 (R46, D4, D5): the value of each component of the fresh machine. -/
theorem freshMachineHoldsResetValues : Obligations.FreshMachineHoldsResetValues :=
  ⟨fun cfg => ⟨rfl, getV_fresh cfg, rfl, rfl, rfl, fun j => by simp [State.fresh], rfl, rfl, read_empty, getPixel_blank,
    rfl, rfl, rfl, rfl, rfl⟩, rfl, rfl, rfl⟩

/-- The fresh machine of a legal configuration meets the invariant. -/
theorem fresh_inv (cfg : Config) (h : cfg.wf) : (State.fresh cfg).Inv where
  cfg_wf := h
  index_le := by simp [State.fresh]
  pc_le := by simp [State.fresh]
  stack_slot j := by simp [State.fresh]
  mem_wf := empty_wf
  screen_wf := blank_wf cfg
  fault_run := by simp [State.fresh]
  fault_wf := by simp [State.fresh]
  wait_key := by simp [State.fresh]

/-- Settles O19 (R46, R7): `State.reset` is the fresh machine of the default configuration, which is legal. -/
theorem invariantHoldsAtReset : Obligations.InvariantHoldsAtReset := ⟨fresh_inv defaultConfig (by decide), fresh_inv⟩

/-! ## Boot loads -/

theorem setMem_onlyChanges (s : State) (m : Memory) : OnlyChanges [.mem] s (s.setMem m) := by
  intro p hp; cases p <;> simp_all [Unchanged]

/-- A load that does not fit (D31). -/
theorem load_of_overflow (data : List Byte) (offset : Word) (s : State) (h : 4096 < offset.toNat + data.length) :
    load data offset s = s.raise (.load offset data.length) := if_pos h

/-- Settles O3 (R455, D31): a load that fits is a write of consecutive bytes, any other a raise. -/
theorem loadCopiesOrRecordsLoadError : Obligations.LoadCopiesOrRecordsLoadError := by
  refine fun data offset s => ⟨fun h => ?_, fun h => ?_⟩
  · rw [load_of_fits data offset s h]
    exact ⟨fun k hk => read_writeBytes_inside data _ _ k hk, fun a ha => read_writeBytes_outside data _ _ a ha,
      setMem_onlyChanges s _⟩
  · rw [load_of_overflow data offset s h]
    exact raise_raises s _

theorem loadFont_eq (s : State) : loadFont s = s.setMem (s.mem.writeBytes 0x050 s.cfg.font.toList) :=
  load_of_fits _ _ s (by simp [fontBase])

/-- A boot with a ROM that fits is the fresh machine with the font and the ROM written to its memory. -/
theorem boot_eq (cfg : Config) (rom : List Byte) (h : rom.length ≤ 3584) :
    boot cfg rom = (State.fresh cfg).setMem
      (((Memory.mk []).writeBytes 0x050 cfg.font.toList).writeBytes 0x200 rom) := by
  have hfits : romBase.toNat + rom.length ≤ 4096 := by
    have : romBase.toNat = 0x200 := rfl
    omega
  rw [boot, load_of_fits rom romBase _ hfits, loadFont_eq]; rfl

/-- Settles O2 (R453 to R455): the ROM is written after the font and above it. -/
theorem bootPlacesFontAndRom : Obligations.BootPlacesFontAndRom := by
  intro cfg rom hrom
  have hlen : cfg.font.toList.length = 80 := cfg.font.length_toList
  rw [boot_eq cfg rom hrom]
  refine ⟨setMem_onlyChanges _ _, fun k hk => ?font, fun k hk => read_writeBytes_inside rom _ _ k hk, fun a ha => ?rest⟩
  case font =>
    rw [setMem_mem, read_writeBytes_outside rom _ _ _ (by omega), read_writeBytes_inside _ _ _ k (by omega)]
    simp
  case rest =>
    rw [setMem_mem, read_writeBytes_outside rom _ _ _ (by omega), read_writeBytes_outside _ _ _ _ (by omega), read_empty]

end Sys2Proof.Machine
end

section
/-! SUPPORT. The step and the host calls (10_state.md R60 to R71, 44_keys_timers.md R293 and R294, 60_exceptions.md R401
to R406): what the fetch stage answers, how an execution can fault, the poll of a key wait, runs that have ended. -/

namespace Sys2Proof.Machine

/-! ## Frames -/

theorem OnlyChanges.trans {l : List Part} {s t u : State} (hst : OnlyChanges l s t) (htu : OnlyChanges l t u) :
    OnlyChanges l s u := by
  intro p hp
  have h1 := hst p hp
  have h2 := htu p hp
  cases p
  case regs | stack | mem | screen => exact fun j => (h2 j).trans (h1 j)
  all_goals exact h2.trans h1

theorem OnlyChanges.mono {l l' : List Part} {s t : State} (h : OnlyChanges l s t) (hl : l ⊆ l') : OnlyChanges l' s t :=
  fun p hp => h p fun hmem => hp (hl hmem)

theorem setKey_onlyChanges (k : Key) (s : State) : OnlyChanges [.keys] s (setKey k s) := by
  intro p hp; cases p <;> simp_all [Unchanged, setKey, State.getV]

theorem unsetKey_onlyChanges (k : Key) (s : State) : OnlyChanges [.keys] s (unsetKey k s) := by
  intro p hp; cases p <;> simp_all [Unchanged, unsetKey, State.getV]

theorem readBuffer_onlyChanges (s : State) : OnlyChanges [.redraw] s (readBuffer s).2 := by
  intro p hp; cases p <;> simp_all [Unchanged, readBuffer, State.getV]

/-! ## Fetch (R61, R406) -/

theorem fetchWord_eq_ofNat (s : State) :
    s.fetchWord = BitVec.ofNat 16 ((s.mem.read s.pc.toNat).toNat * 256 + (s.mem.read (s.pc.toNat + 1)).toNat) := by
  rw [← toNat_fetchWord, BitVec.ofNat_toNat, BitVec.setWidth_eq]

theorem fetchDecode_of_odd (s : State) (h : s.pc.toNat % 2 = 1) : s.fetchDecode = .error (.misaligned s.pc) := by
  rw [State.fetchDecode, pc_bit0, decide_eq_true h, if_pos rfl]

theorem pc_bit0_of_even (w : Word) (h : w.toNat % 2 = 0) : w.getLsbD 0 = false := by
  rw [pc_bit0, h]; rfl

theorem fetchDecode_of_beyond (s : State) (heven : s.pc.toNat % 2 = 0) (h : 0xFFE < s.pc.toNat) :
    s.fetchDecode = .error (.boundsAtFetch s.pc) := by
  simp only [State.fetchDecode, pc_bit0_of_even _ heven, h, Bool.false_eq_true, if_false, if_true]

theorem fetchDecode_of_decode_ok (s : State) (i : Instr) (heven : s.pc.toNat % 2 = 0) (hle : s.pc.toNat ≤ 0xFFE)
    (hd : decode s.cfg.alu8Map s.fetchWord = .ok i) : s.fetchDecode = .ok i := by
  simp only [State.fetchDecode, pc_bit0_of_even _ heven, Nat.not_lt.2 hle, Bool.false_eq_true, if_false, hd]

theorem fetchDecode_of_decode_error (s : State) (r : DecodeReject) (heven : s.pc.toNat % 2 = 0)
    (hle : s.pc.toNat ≤ 0xFFE) (hd : decode s.cfg.alu8Map s.fetchWord = .error r) :
    s.fetchDecode = .error (.decodeFailure s.pc s.fetchWord) := by
  simp only [State.fetchDecode, pc_bit0_of_even _ heven, Nat.not_lt.2 hle, Bool.false_eq_true, if_false, hd]

/-! ## The step by run state (R61) -/

theorem step_of_fetched (s : State) (i : Instr) (hrun : s.run = .running) (h : s.fetchDecode = .ok i) :
    step s = exec i s := by
  simp [step, hrun, h]

theorem step_of_fetch_fault (s : State) (r : FaultRecord) (hrun : s.run = .running) (h : s.fetchDecode = .error r) :
    step s = .next (s.raise r) := by
  simp [step, hrun, h]

theorem step_of_awaiting (s : State) (hrun : s.run = .awaitingKey) : step s = .next (keyWaitPoll s) := by
  simp [step, hrun]

theorem step_of_ended (s : State) (hrun : s.run = .faulted ∨ s.run = .stopped) : step s = .next s := by
  obtain h | h := hrun <;> simp [step, h]

theorem withFetchWord_fetchWord (s : State) (w : Nat) (hle : s.pc.toNat ≤ 0xFFE) (hw : w < 65536) :
    (s.withFetchWord 16 w).fetchWord = BitVec.ofNat 16 w := by
  have hmod : w % 2 ^ 16 = w := Nat.mod_eq_of_lt hw
  rw [State.withFetchWord, hmod]
  exact readWord_placeWord s.mem _ _ hle

/-- Settles O13 (R61, D1): the fetched word is the two bytes at PC, and `withFetchWord` places it. -/
theorem stepRunsDecodedInstruction : Obligations.StepRunsDecodedInstruction := by
  refine ⟨fun s i hrun heven hle hd => ?_, fun s w i heven hle hw hd => ?_⟩
  · rw [← fetchWord_eq_ofNat] at hd
    exact step_of_fetched s i hrun (fetchDecode_of_decode_ok s i heven hle hd)
  · rw [← withFetchWord_fetchWord s w hle hw] at hd
    exact step_of_fetched _ i rfl (fetchDecode_of_decode_ok (s.withFetchWord 16 w) i heven hle hd)

/-- Settles O14 (R61, R400, R406): each fetch-stage fault is a raise from the state before the step. -/
theorem stepTakesFetchStageFaults : Obligations.StepTakesFetchStageFaults := by
  refine fun s hrun => ⟨fun hodd => ?_, fun heven hgt => ?_, fun heven hle w r hw hd => ?_⟩
  · rw [step_of_fetch_fault s _ hrun (fetchDecode_of_odd s hodd)]
    exact raise_raises s _
  · rw [step_of_fetch_fault s _ hrun (fetchDecode_of_beyond s heven hgt)]
    exact raise_raises s _
  · obtain rfl : w = s.fetchWord := BitVec.eq_of_toNat_eq (hw.trans (toNat_fetchWord s).symm)
    rw [step_of_fetch_fault s _ hrun (fetchDecode_of_decode_error s r heven hle hd)]
    exact raise_raises s _

/-! ## KEY_WAIT and the poll (R293, R294) -/

/-- What KEY_WAIT can do. -/
theorem exec_keyWait_cases (x : Reg) (s : State) :
    (s.cfg.keyWaitMode = .anyStore ∧
      ((∃ k, s.lowestKey = some k ∧ exec (.keyWait x) s = .next (s.advance.setV x (keyByte k))) ∨
       (s.lowestKey = none ∧ exec (.keyWait x) s = .next (s.advance.awaitKey x)))) ∨
    (s.cfg.keyWaitMode = .designatedVx ∧
      (((s.getV x).toNat < 16 ∧ s.keys.getLsbD (s.getV x).toNat = true ∧ exec (.keyWait x) s = .next s.advance) ∨
       ((s.getV x).toNat < 16 ∧ s.keys.getLsbD (s.getV x).toNat = false ∧
          exec (.keyWait x) s = .next (s.advance.awaitKey x)) ∨
       (¬ (s.getV x).toNat < 16 ∧
          exec (.keyWait x) s =
            .next (s.raise (.keyRange s.pc (encode s.cfg.alu8Map (.keyWait x)) (s.getV x)))))) := by
  simp only [exec, execKeyWait]
  cases hm : s.cfg.keyWaitMode with
  | anyStore =>
    refine .inl ⟨rfl, ?_⟩
    cases hk : s.lowestKey with
    | none => exact .inr ⟨rfl, rfl⟩
    | some k => exact .inl ⟨k, rfl, rfl⟩
  | designatedVx =>
    refine .inr ⟨rfl, ?_⟩
    by_cases hlt : (s.getV x).toNat < 16
    · rw [keyIndex_of_le _ hlt]
      cases hheld : s.keys.getLsbD (s.getV x).toNat
      · exact .inr (.inl ⟨hlt, rfl, by simp [State.keyHeld, hheld]⟩)
      · exact .inl ⟨hlt, rfl, by simp [State.keyHeld, hheld]⟩
    · rw [keyIndex_of_gt _ hlt]
      exact .inr (.inr ⟨hlt, rfl⟩)

theorem keyWaitPoll_of_no_key (s : State) (hm : s.cfg.keyWaitMode = .anyStore) (h : s.lowestKey = none) :
    keyWaitPoll s = s := by
  simp [keyWaitPoll, hm, h]

theorem keyWaitPoll_of_lowestKey (s : State) (k : Key) (hm : s.cfg.keyWaitMode = .anyStore)
    (h : s.lowestKey = some k) : keyWaitPoll s = (s.setV s.waitX (keyByte k)).resume := by
  simp [keyWaitPoll, hm, h]

/-- A poll for a designated key; a value above 0xF names no bit of the mask (log entry 16). -/
theorem keyWaitPoll_designated (s : State) (hm : s.cfg.keyWaitMode = .designatedVx) :
    keyWaitPoll s = if s.keys.getLsbD (s.getV s.waitX).toNat then s.resume else s := by
  by_cases hlt : (s.getV s.waitX).toNat < 16
  · simp only [keyWaitPoll, hm, keyIndex_of_le _ hlt]; rfl
  · simp [keyWaitPoll, hm, keyIndex_of_gt _ hlt, BitVec.getLsbD_of_ge _ _ (Nat.not_lt.1 hlt)]

/-- Settles O17 (R294, D8, D9): the poll by its mode, and the lowest held key as the state's own search finds it. -/
theorem keyWaitPollResult : Obligations.KeyWaitPollResult := by
  refine fun s hrun => ⟨keyWaitPoll s, step_of_awaiting s hrun, fun hm => ⟨fun hkeys => ?none, fun k hk hlow => ?lowest⟩,
    fun hm => ?designated⟩
  case none => exact keyWaitPoll_of_no_key s hm (lowestKey_of_no_keys s hkeys)
  case lowest =>
    rw [keyWaitPoll_of_lowestKey s k hm ((lowestKey_eq_some_iff s k).2 ⟨hk, hlow⟩)]
    refine ⟨getV_setV_self s _ _, fun j hj => getV_setV_ne s _ j _ (by simpa using hj), rfl, fun p hp => ?_⟩
    cases p <;> simp_all [Unchanged]
  case designated =>
    rw [keyWaitPoll_designated s hm]
    refine ⟨fun hheld => ?_, fun hfree => by simp [hfree]⟩
    rw [if_pos hheld]
    exact ⟨rfl, fun p hp => by cases p <;> simp_all [Unchanged]⟩

/-! ## Faults of the execution stage (R401 to R403) -/

/-- Only KEY_WAIT can write RUN without a fault. -/
theorem run_mem_footprint (i : Instr) (h : .run ∈ footprint i) : ∃ x, i = .keyWait x := by
  cases i <;> simp_all [footprint]

/-- An instruction that ends in FAULTED has raised. -/
theorem raised_of_faulted (i : Instr) (s t : State) (h : exec i s = .next t) (hs : s.run ≠ .faulted)
    (ht : t.run = .faulted) : Raised i s t := by
  by_cases hi : .run ∈ footprint i
  · obtain ⟨x, rfl⟩ := run_mem_footprint i hi
    obtain ⟨_, ⟨k, _, e⟩ | ⟨_, e⟩⟩ | ⟨_, ⟨_, _, e⟩ | ⟨_, _, e⟩ | ⟨_, e⟩⟩ := exec_keyWait_cases x s <;>
      rw [e] at h <;> cases h
    · exact absurd ht hs
    · cases ht
    · exact absurd ht hs
    · cases ht
    · exact raised_keyRange _ s _
  · refine (exec_footprint i s t h).resolve_left fun hf => hs ?_
    rw [← hf .run hi, ht]

/-- The word a fault records is the fetched one: the two instructions with an ignored nibble raise nothing. -/
theorem encode_of_raised (i : Instr) (s t : State) (w : Word) (hd : decode s.cfg.alu8Map w = .ok i)
    (hx : exec i s = .next t) (hs : s.run ≠ .faulted) (ht : t.run = .faulted) : encode s.cfg.alu8Map i = w := by
  obtain ⟨_, he | ⟨h5 | h9, _⟩⟩ := encodeOfDecodeIsIdentityUpToIgnoredBits s.cfg.alu8Map w i hd
  · exact he
  · rw [← packXYN_of_opField w 0x5 ((toNat_opField w).trans h5), decode_skipEqReg] at hd
    cases hd; cases hx
    exact absurd ((skipIf_run _ _).symm.trans ht) hs
  · rw [← packXYN_of_opField w 0x9 ((toNat_opField w).trans h9), decode_skipNeqReg] at hd
    cases hd; cases hx
    exact absurd ((skipIf_run _ _).symm.trans ht) hs

/-- What R401 to R403 ask of the record of a step taken from `s`: the fields of its kind, the address of the instruction,
and the fetched word exactly when one was read. -/
def NamesInstruction (s : State) (r : FaultRecord) : Prop :=
  r.wf = true ∧ r.pc = some s.pc ∧ r.kind ≠ .loadError ∧ (r.word = none ↔ s.pc.toNat % 2 = 1 ∨ 0xFFE < s.pc.toNat) ∧
    ∀ w, r.word = some w →
      w.toNat = (s.mem.read s.pc.toNat).toNat * 256 + (s.mem.read (s.pc.toNat + 1)).toNat

/-- A record with the word of a PC that can be fetched from. -/
theorem namesInstruction_of_fetchWord (s : State) (r : FaultRecord) (hwf : r.wf = true) (hpc : r.pc = some s.pc)
    (hkind : r.kind ≠ .loadError) (hword : r.word = some s.fetchWord) (heven : s.pc.toNat % 2 = 0)
    (hle : s.pc.toNat ≤ 0xFFE) : NamesInstruction s r := by
  refine ⟨hwf, hpc, hkind, by simp [hword, heven, hle], fun w hw => ?_⟩
  cases hword.symm.trans hw
  exact toNat_fetchWord s

theorem fetch_fault_names (s : State) (r : FaultRecord) (h : s.fetchDecode = .error r) : NamesInstruction s r := by
  obtain ⟨hodd, e⟩ | ⟨_, hgt, e⟩ | ⟨heven, hle, ⟨_, _, e⟩ | ⟨_, _, e⟩⟩ := fetchDecode_eq s <;> cases h.symm.trans e
  · exact ⟨rfl, rfl, nofun, by simp [FaultRecord.misaligned, hodd], nofun⟩
  · exact ⟨rfl, rfl, nofun, by simp [FaultRecord.boundsAtFetch, hgt], nofun⟩
  · exact namesInstruction_of_fetchWord s _ rfl rfl nofun rfl heven hle

/-- Settles O15 (R401 to R403, D3, D30): a step that faults is a raise, at the fetch stage or by the instruction. -/
theorem faultsArePreciseAndRecorded : Obligations.FaultsArePreciseAndRecorded := by
  intro s t hrun hstep ht
  have hs : s.run ≠ .faulted := by simp [hrun]
  obtain ⟨_, rfl⟩ | ⟨hwait, _⟩ | ⟨_, r, hr, rfl⟩ | ⟨_, i, hi, hx⟩ := step_cases s t hstep
  · exact absurd ht hs
  · cases hrun.symm.trans hwait
  · exact ⟨raise_onlyChanges s r, r, rfl, fetch_fault_names s r hr⟩
  · obtain ⟨heven, hle, hd⟩ := fetchDecode_ok s i hi
    have hencode := encode_of_raised i s t s.fetchWord hd hx hs ht
    obtain ⟨r, rfl, hwf, hpc, hword, hkind⟩ := raised_of_faulted i s t hx hs ht
    exact ⟨raise_onlyChanges s r, r, rfl,
      namesInstruction_of_fetchWord s r hwf hpc hkind (hword.trans (congrArg some hencode)) heven hle⟩

/-! ## Runs that have ended (R405, R65, R466) -/

theorem tickTimers_of_ended (s : State) (h : s.run = .faulted ∨ s.run = .stopped) : tickTimers s = s := by
  obtain h | h := h <;> simp [tickTimers, h]

theorem quit_of_ended (s : State) (h : s.run = .faulted ∨ s.run = .stopped) : quit s = s := by
  obtain h | h := h <;> simp [quit, h]

/-- Once a run has ended a call changes at most the keys and the redraw-pending flag. -/
theorem after_of_ended (c : HostCall) (s : State) (h : s.run = .faulted ∨ s.run = .stopped) :
    ∃ t, c.after s = .next t ∧ OnlyChanges [.keys, .redraw] s t := by
  cases c with
  | step => exact ⟨s, step_of_ended s h, onlyChanges_refl _ s⟩
  | tickTimers => exact ⟨s, congrArg Host.Outcome.next (tickTimers_of_ended s h), onlyChanges_refl _ s⟩
  | quit => exact ⟨s, congrArg Host.Outcome.next (quit_of_ended s h), onlyChanges_refl _ s⟩
  | setKey k => exact ⟨_, rfl, (setKey_onlyChanges k s).mono (by simp)⟩
  | unsetKey k => exact ⟨_, rfl, (unsetKey_onlyChanges k s).mono (by simp)⟩
  | readBuffer => exact ⟨_, rfl, (readBuffer_onlyChanges s).mono (by simp)⟩
  | redrawPending | isAwaitingKey | faultStatus | soundActive => exact ⟨s, rfl, onlyChanges_refl _ s⟩

/-- Settles O16 (R405, R65, R466, D23, D24): by induction on the calls; no call leaves an ended run state. -/
theorem endedRunsStayEnded : Obligations.EndedRunsStayEnded := by
  intro cs
  induction cs with
  | nil => exact fun s _ => ⟨s, rfl, onlyChanges_refl _ s⟩
  | cons c cs ih =>
    intro s h
    obtain ⟨t, ht, hst⟩ := after_of_ended c s h
    have hrun : t.run = s.run := hst .run (by simp)
    obtain ⟨u, hu, htu⟩ := ih t (by rwa [hrun])
    exact ⟨u, by rw [callAll, ht]; exact hu, hst.trans htu⟩

/-! ## Every call completes -/

/-- No instruction is refused, and none stops the model (log entry 7). -/
theorem exec_total (i : Instr) (s : State) : ∃ t, exec i s = .next t := by
  cases i with
  | ret => simp only [exec, execReturn]; split <;> exact ⟨_, rfl⟩
  | call nnn => simp only [exec, execCall]; split <;> exact ⟨_, rfl⟩
  | draw | bcdStore | regDump | regLoad =>
    simp only [exec, execDraw, execBcdStore, execRegDump, execRegLoad]
    split <;> exact ⟨_, rfl⟩
  | skipIfKey | skipIfNotKey =>
    simp only [exec, execSkipIfKey, execSkipIfNotKey, keySkip]
    split <;> exact ⟨_, rfl⟩
  | keyWait x =>
    obtain ⟨_, ⟨k, _, e⟩ | ⟨_, e⟩⟩ | ⟨_, ⟨_, _, e⟩ | ⟨_, _, e⟩ | ⟨_, e⟩⟩ := exec_keyWait_cases x s <;> exact ⟨_, e⟩
  | clear | syscall | jump | skipEqImm | skipNeqImm | skipEqReg | loadImm | addImm | move | or | and | xor | addReg
  | subReg | shiftRight | shiftLeft | subReverse | skipNeqReg | loadIndex | jumpIndexed | random | timerGet
  | timerSetDelay | timerSetSound | indexAdd | fontAddr => exact ⟨_, rfl⟩

theorem step_total (s : State) : ∃ t, step s = .next t := by
  cases hrun : s.run with
  | faulted => exact ⟨s, step_of_ended s (.inl hrun)⟩
  | stopped => exact ⟨s, step_of_ended s (.inr hrun)⟩
  | awaitingKey => exact ⟨_, step_of_awaiting s hrun⟩
  | running =>
    cases hf : s.fetchDecode with
    | error r => exact ⟨_, step_of_fetch_fault s r hrun hf⟩
    | ok i => rw [step_of_fetched s i hrun hf]; exact exec_total i s

theorem after_total (c : HostCall) (s : State) : ∃ t, c.after s = .next t := by
  cases c with
  | step => exact step_total s
  | tickTimers | setKey | unsetKey | quit | redrawPending | readBuffer | isAwaitingKey | faultStatus | soundActive =>
    exact ⟨_, rfl⟩

theorem cfg_notMem_footprint (i : Instr) : .cfg ∉ footprint i := by
  cases i <;> simp [footprint]

/-- No call changes the configuration (R7). -/
theorem after_cfg (c : HostCall) (s t : State) (h : c.after s = .next t) : t.cfg = s.cfg := by
  by_cases hc : c = .step
  · subst hc
    by_contra hu
    obtain ⟨_, i, _, _, _, hmem⟩ := step_changes s t .cfg h hu (by simp) (by simp) (by simp)
    exact cfg_notMem_footprint i hmem
  · exact (call_footprint c s t h hc).1 .cfg (by simp)

/-- Settles O18 (R7, R110, log entries 1 and 7). -/
theorem everyHostCallCompletes : Obligations.EveryHostCallCompletes := fun c s =>
  (after_total c s).imp fun t ht => ⟨ht, after_cfg c s t ht⟩

end Sys2Proof.Machine
end

section
/-! SUPPORT. Register loads, ALU, skips, jumps, the call stack and the I register, instruction by instruction
(40_control_flow.md, 41_alu.md, 42_index_memory.md): the result of each, with the frame read off its footprint. -/

namespace Sys2Proof.Machine

/-! ## Frames -/

theorem pc_add_two_ne (w : Word) : w + 2 ≠ w := by
  simp

/-- An instruction that leaves PC behind it has not raised, so it changes its footprint only. -/
theorem frame_of_advanced (i : Instr) (s t : State) (h : exec i s = .next t) (hpc : t.pc = s.pc + 2) :
    OnlyChanges (footprint i) s t := by
  refine (exec_footprint i s t h).resolve_right ?_
  rintro ⟨r, rfl, _⟩
  exact pc_add_two_ne s.pc hpc.symm

theorem setPc_onlyChanges (s : State) (a : Word) : OnlyChanges [.pc] s (s.setPc a) := by
  intro p hp; cases p <;> simp_all [Unchanged]

theorem skipIf_onlyChanges (s : State) (c : Bool) : OnlyChanges [.pc] s (s.advance.skipIf c) := by
  intro p hp; cases p <;> simp_all [Unchanged]

theorem setV_onlyRegs (s : State) (x : Reg) (b : Byte) : OnlyRegs [x] s (s.advance.setV x b) :=
  fun j hj => getV_setV_ne s.advance x j b (by simpa using hj)

/-! ## Plain register writes (R182 to R187, R296) -/

theorem writesOneReg_of_setV (i : Instr) (x : Reg) (val : State → Byte) (hfp : footprint i = [.regs, .pc])
    (hexec : ∀ s, exec i s = .next (s.advance.setV x (val s))) : WritesOneReg i x val := fun s =>
  ⟨_, hexec s, getV_setV_self _ x _, setV_onlyRegs s x _, rfl, hfp ▸ frame_of_advanced i s _ (hexec s) rfl⟩

theorem ofNat_toNat_add_mod (a b : Byte) : BitVec.ofNat 8 ((a.toNat + b.toNat) % 256) = a + b :=
  BitVec.eq_of_toNat_eq (by simp)

/-- Settles O31 (R182 to R187, R296): each is one register write of the value the spec gives. -/
theorem registerWriteResults : Obligations.RegisterWriteResults := fun x y kk =>
  ⟨writesOneReg_of_setV (.loadImm x kk) x _ rfl fun _ => rfl,
   writesOneReg_of_setV (.addImm x kk) x _ rfl fun s => by rw [ofNat_toNat_add_mod]; rfl,
   writesOneReg_of_setV (.move x y) x _ rfl fun _ => rfl,
   writesOneReg_of_setV (.or x y) x _ rfl fun _ => rfl,
   writesOneReg_of_setV (.and x y) x _ rfl fun _ => rfl,
   writesOneReg_of_setV (.xor x y) x _ rfl fun _ => rfl,
   writesOneReg_of_setV (.timerGet x) x _ rfl fun _ => rfl⟩

/-! ## Register writes with a flag (R188 to R192, R181) -/

/-- What an instruction that writes V[x] and then the flag leaves in the registers and PC. -/
theorem setVFlag_result (i : Instr) (s : State) (x : Reg) (b : Byte) (c : Bool) (hfp : footprint i = [.regs, .pc])
    (hexec : exec i s = .next (s.advance.setVFlag x b c)) :
    (x ≠ 15 → (s.advance.setVFlag x b c).getV x = b) ∧ (s.advance.setVFlag x b c).getV 15 = flagByte c ∧
    OnlyRegs [x, 15] s (s.advance.setVFlag x b c) ∧ (s.advance.setVFlag x b c).pc = s.pc + 2 ∧
    OnlyChanges [.regs, .pc] s (s.advance.setVFlag x b c) := by
  refine ⟨fun hx => ?_, getV_setVFlag .., fun j hj => ?_, rfl, hfp ▸ frame_of_advanced i s _ hexec rfl⟩
  · rw [getV_setVFlag, if_neg (by simpa [flagReg] using hx), if_pos rfl]
  · obtain ⟨hjx, hjf⟩ : j ≠ x ∧ j ≠ 15 := by simpa using hj
    rw [getV_setVFlag, if_neg (by simpa [flagReg] using hjf), if_neg hjx, advance_getV]

theorem flagByte_carryOut (a b : Byte) :
    (255 < a.toNat + b.toNat → flagByte (carryOut a b) = 1) ∧ (a.toNat + b.toNat ≤ 255 → flagByte (carryOut a b) = 0) :=
  ⟨fun h => by simp [flagByte, carryOut, h], fun h => by simp [flagByte, carryOut, Nat.not_lt.2 h]⟩

theorem flagByte_noBorrow (a b : Byte) :
    (b.toNat ≤ a.toNat → flagByte (noBorrow a b) = 1) ∧ (a.toNat < b.toNat → flagByte (noBorrow a b) = 0) :=
  ⟨fun h => by simp [flagByte, noBorrow, h], fun h => by simp [flagByte, noBorrow, Nat.not_le.2 h]⟩

theorem ofNat_toNat_sub_mod (a b : Byte) : BitVec.ofNat 8 ((256 + a.toNat - b.toNat) % 256) = a - b := by
  apply BitVec.eq_of_toNat_eq
  rw [BitVec.toNat_sub, BitVec.toNat_ofNat]
  omega

/-- Settles O32 (R188, R181, D11). -/
theorem addRegResult : Obligations.AddRegResult := by
  refine fun x y => ⟨fun m => decode_ofNat_alu_fixed m x y 0x4 _ rfl, fun s => ?_⟩
  obtain ⟨hx, hflag, hframe⟩ := setVFlag_result (.addReg x y) s x _ _ rfl rfl
  obtain ⟨hcarry, hnone⟩ := flagByte_carryOut (s.getV x) (s.getV y)
  exact ⟨_, rfl, fun h => (hx h).trans (ofNat_toNat_add_mod ..).symm, fun h => hflag.trans (hcarry h),
    fun h => hflag.trans (hnone h), hframe⟩

/-- Settles O33 (R189, R181, D11). -/
theorem subRegResult : Obligations.SubRegResult := by
  refine fun x y => ⟨fun m => decode_ofNat_alu_fixed m x y 0x5 _ rfl, fun s => ?_⟩
  obtain ⟨hx, hflag, hframe⟩ := setVFlag_result (.subReg x y) s x _ _ rfl rfl
  obtain ⟨hno, hborrow⟩ := flagByte_noBorrow (s.getV x) (s.getV y)
  exact ⟨_, rfl, fun h => (hx h).trans (ofNat_toNat_sub_mod ..).symm, fun h => hflag.trans (hno h),
    fun h => hflag.trans (hborrow h), hframe⟩

/-- Settles O34 (R192, D6, D11). -/
theorem subReverseResult : Obligations.SubReverseResult := by
  intro x y s
  obtain ⟨hx, hflag, hframe⟩ := setVFlag_result (.subReverse x y) s x _ _ rfl rfl
  obtain ⟨hno, hborrow⟩ := flagByte_noBorrow (s.getV y) (s.getV x)
  exact ⟨_, rfl, fun h => (hx h).trans (ofNat_toNat_sub_mod ..).symm, fun h => hflag.trans (hno h),
    fun h => hflag.trans (hborrow h), hframe⟩

theorem toNat_flagByte (c : Bool) : (flagByte c).toNat = c.toNat := by
  cases c <;> rfl

theorem toNat_shiftedOutRight (a : Byte) : (shiftedOutRight a).toNat = a.toNat % 2 := by
  rw [shiftedOutRight, BitVec.getLsbD, Nat.toNat_testBit, pow_zero, Nat.div_one]

theorem toNat_shiftedOutLeft (a : Byte) : (shiftedOutLeft a).toNat = a.toNat / 128 := by
  rw [shiftedOutLeft, BitVec.getLsbD, Nat.toNat_testBit]
  omega

theorem toNat_shiftRight_one (a : Byte) : (a >>> 1).toNat = a.toNat / 2 := by
  rw [BitVec.toNat_ushiftRight, Nat.shiftRight_eq_div_pow, pow_one]

theorem toNat_shiftLeft_one (a : Byte) : (a <<< 1).toNat = a.toNat * 2 % 256 := by
  rw [BitVec.toNat_shiftLeft, Nat.shiftLeft_eq, pow_one]

/-- Settles O35 (R190, R191, D34, D11). -/
theorem shiftResults : Obligations.ShiftResults := by
  refine fun x y s => ⟨?right, ?left⟩
  case right =>
    obtain ⟨hx, hflag, hframe⟩ := setVFlag_result (.shiftRight x y) s x _ _ rfl rfl
    exact ⟨_, rfl, fun h => by rw [hx h, toNat_shiftRight_one],
      by rw [hflag, toNat_flagByte, toNat_shiftedOutRight], hframe⟩
  case left =>
    obtain ⟨hx, hflag, hframe⟩ := setVFlag_result (.shiftLeft x y) s x _ _ rfl rfl
    exact ⟨_, rfl, fun h => by rw [hx h, toNat_shiftLeft_one],
      by rw [hflag, toNat_flagByte, toNat_shiftedOutLeft], hframe⟩

/-! ## RANDOM (R193, D26) -/

theorem toNat_drawRandom_le (s : State) (kk : Byte) : (s.drawRandom kk).1.toNat ≤ kk.toNat := by
  have hlt : Config.freeDraw s.draws % (kk.toNat + 1) < kk.toNat + 1 := Nat.mod_lt _ (Nat.succ_pos _)
  rw [State.drawRandom, BitVec.toNat_ofNat]
  omega

/-- Settles O36 (R193, D26): the free value is reduced to the interval before it is written. -/
theorem randomStaysWithinMask : Obligations.RandomStaysWithinMask := fun x kk s =>
  ⟨_, rfl, (congrArg BitVec.toNat (getV_setV_self ..)).trans_le (toNat_drawRandom_le s kk),
    fun j hj => getV_setV_ne _ x j _ (by simpa using hj), rfl, frame_of_advanced (.random x kk) s _ rfl rfl⟩

/-! ## Skips (R145 to R148) -/

theorem pc_add_four (w : Word) : w + 2 + 2 = w + 4 := by
  rw [BitVec.add_assoc]; rfl

theorem skipsWhen_of_skipIf (i : Instr) (cond : State → Prop) (c : State → Bool) (hc : ∀ s, c s = true ↔ cond s)
    (hexec : ∀ s, exec i s = .next (s.advance.skipIf (c s))) : SkipsWhen i cond := by
  refine fun s => ⟨_, hexec s, fun h => ?_, fun h => ?_, skipIf_onlyChanges s _⟩
  · rw [skipIf_pc, if_pos ((hc s).2 h), advance_pc, pc_add_four]
  · rw [skipIf_pc, if_neg (mt (hc s).1 h), advance_pc]

/-- Settles O37 (R145 to R148, D28). -/
theorem compareSkipResults : Obligations.CompareSkipResults := fun x y kk =>
  ⟨skipsWhen_of_skipIf (.skipEqImm x kk) _ (fun s => s.getV x == kk) (fun _ => beq_iff_eq) fun _ => rfl,
   skipsWhen_of_skipIf (.skipNeqImm x kk) _ (fun s => s.getV x != kk) (fun _ => bne_iff_ne) fun _ => rfl,
   skipsWhen_of_skipIf (.skipEqReg x y) _ (fun s => s.getV x == s.getV y) (fun _ => beq_iff_eq) fun _ => rfl,
   skipsWhen_of_skipIf (.skipNeqReg x y) _ (fun s => s.getV x != s.getV y) (fun _ => bne_iff_ne) fun _ => rfl⟩

/-! ## Jumps (R143, R149) -/

theorem toNat_addrOperand (nnn : Addr) : (addrOperand nnn).toNat = nnn.toNat :=
  BitVec.toNat_setWidth_of_le (by decide)

theorem toNat_wordOperand (b : Byte) : (wordOperand b).toNat = b.toNat :=
  BitVec.toNat_setWidth_of_le (by decide)

theorem toNat_addrOperand_add (nnn : Addr) (b : Byte) :
    (addrOperand nnn + wordOperand b).toNat = nnn.toNat + b.toNat := by
  rw [BitVec.toNat_add, toNat_addrOperand, toNat_wordOperand]
  omega

/-- Settles O38 (R143, R33, D2): the target is not checked before the next fetch. -/
theorem jumpResult : Obligations.JumpResult := by
  intro nnn
  refine ⟨fun m => by rw [ofNat_packNNN 0x1 nnn 0x1000 rfl, decode_jump], fun s =>
    ⟨_, rfl, toNat_addrOperand nnn, setPc_onlyChanges s _, fun hrun hodd => ?_⟩⟩
  have hpc : (s.setPc (addrOperand nnn)).pc.toNat % 2 = 1 := by rwa [setPc_pc, toNat_addrOperand]
  rw [step_of_fetch_fault (s.setPc (addrOperand nnn)) _ hrun (fetchDecode_of_odd _ hpc)]
  exact raise_raises _ _

/-- Settles O39 (R149, D15): the sum has no carry out of 16 bits. -/
theorem jumpIndexedResult : Obligations.JumpIndexedResult := fun nnn s =>
  ⟨_, rfl, toNat_addrOperand_add nnn _, setPc_onlyChanges s _⟩

/-! ## The call stack (R141, R144) -/

theorem exec_call_of_lt (nnn : Addr) (s : State) (h : s.sp.val < 16) :
    exec (.call nnn) s = .next (State.setPc
      { s with stack := s.stack.set s.sp.val (s.pc + 2) h, sp := ⟨s.sp.val + 1, by omega⟩ } (addrOperand nnn)) := by
  simp only [exec, execCall, push_of_lt s _ h]

theorem exec_call_of_full (nnn : Addr) (s : State) (h : s.sp.val = 16) :
    exec (.call nnn) s = .next (s.raise (.atExecution .stackOverflow s.pc (packNNN 0x2 nnn))) := by
  simp only [exec, execCall, push_of_full s _ h, encode]

theorem exec_ret_of_succ (s : State) (k : Nat) (hk : k < 16) (h : s.sp.val = k + 1) :
    exec .ret s = .next (State.setPc { s with sp := ⟨k, by omega⟩ } s.stack[k]) := by
  simp only [exec, execReturn, pop_of_succ s k hk h]

theorem exec_ret_of_zero (s : State) (h : s.sp.val = 0) :
    exec .ret s = .next (s.raise (.atExecution .stackUnderflow s.pc 0x00EE)) := by
  simp only [exec, execReturn, pop_of_zero s h, encode]

/-- Settles O40 (R144): push below depth 16, StackOverflow at it. -/
theorem callResult : Obligations.CallResult := by
  refine fun nnn => ⟨fun m => by rw [ofNat_packNNN 0x2 nnn 0x2000 rfl, decode_call], fun s =>
    ⟨fun h => ?push, fun h => ?full⟩⟩
  case push =>
    refine ⟨_, exec_call_of_lt nnn s h, toNat_addrOperand nnn, rfl, Vector.getElem_set_self h, fun j hj => ?_,
      fun p hp => ?_⟩
    · exact Vector.getElem_set_ne h j.isLt hj.symm
    · cases p <;> simp_all [Unchanged, State.getV]
  case full =>
    rw [exec_call_of_full nnn s h, ofNat_packNNN 0x2 nnn 0x2000 rfl]
    exact raise_raises s _

/-- Settles O41 (R141, D33): pop above depth 0, StackUnderflow at it. -/
theorem returnResult : Obligations.ReturnResult := by
  refine fun s => ⟨fun k hk h => ⟨_, exec_ret_of_succ s k hk h, rfl, rfl, fun p hp => ?_⟩, fun h => ?_⟩
  · cases p <;> simp_all [Unchanged, State.getV]
  · rw [exec_ret_of_zero s h]
    exact raise_raises s _

/-- Settles O42 (R141, R144, S13): the slot RETURN pops is the one CALL wrote. -/
theorem callThenReturnRestores : Obligations.CallThenReturnRestores := by
  intro nnn s t u hlt hcall hsp hstack
  cases (exec_call_of_lt nnn s hlt).symm.trans hcall
  refine ⟨_, exec_ret_of_succ u s.sp.val hlt (congrArg Fin.val hsp), ?_, rfl⟩
  exact (hstack ⟨s.sp.val, hlt⟩).trans (Vector.getElem_set_self hlt)

/-- Settles O43 (R142, D27). -/
theorem syscallResult : Obligations.SyscallResult := fun nnn s =>
  ⟨_, rfl, rfl, rfl, frame_of_advanced (.syscall nnn) s _ rfl rfl⟩

/-! ## The I register (R230 to R232) -/

theorem toNat_and_mask12 (a : Word) : (a &&& 0xFFF).toNat = a.toNat % 4096 :=
  (BitVec.toNat_and ..).trans (Nat.and_two_pow_sub_one_eq_mod a.toNat 12)

theorem toNat_glyphAddr (b : Byte) : (glyphAddr b).toNat = 0x050 + 5 * (b.toNat % 16) := by
  have hdigit : (b &&& 0xF).toNat = b.toNat % 16 :=
    (BitVec.toNat_and ..).trans (Nat.and_two_pow_sub_one_eq_mod b.toNat 4)
  have hbase : fontBase.toNat = 0x050 := rfl
  have hfive : BitVec.toNat (5 : Word) = 5 := rfl
  rw [glyphAddr, BitVec.toNat_add, BitVec.toNat_mul, BitVec.toNat_setWidth, hdigit, hbase, hfive]
  omega

/-- Settles O44 (R230 to R232, D20): each is a masked write of I. -/
theorem indexWriteResults : Obligations.IndexWriteResults := by
  refine fun x nnn s => ⟨⟨_, rfl, ?load, rfl, frame_of_advanced (.loadIndex nnn) s _ rfl rfl⟩,
    ⟨_, rfl, ?add, rfl, frame_of_advanced (.indexAdd x) s _ rfl rfl⟩,
    ⟨_, rfl, ?font, rfl, frame_of_advanced (.fontAddr x) s _ rfl rfl⟩⟩
  case load => rw [setIndex_index, toNat_and_mask12, toNat_addrOperand]; omega
  case add => rw [setIndex_index, toNat_and_mask12, BitVec.toNat_add, toNat_wordOperand]; omega
  case font => rw [setIndex_index, toNat_and_mask12, toNat_glyphAddr]; omega

end Sys2Proof.Machine
end

section
/-! SUPPORT. Stores and loads (42_index_memory.md R233 to R236): what BCD_STORE, REG_DUMP and REG_LOAD do when their range
exists, and the bounds fault when it does not (20_memory.md R83, D36). -/

namespace Sys2Proof.Machine

/-! ## The three instructions by their bounds check -/

theorem exec_bcdStore_of_fits (x : Reg) (s : State) (h : s.ea 2 ≤ 0xFFF) :
    exec (.bcdStore x) s = .next (s.advance.setMem (s.mem.writeBytes (s.ea 0) (bcdDigits (s.getV x)))) :=
  if_pos (by rw [rangeInMemory_ea s 3 (by omega)]; exact decide_eq_true h)

theorem exec_bcdStore_of_beyond (x : Reg) (s : State) (h : 0xFFF < s.ea 2) :
    exec (.bcdStore x) s = .next (s.raise (.boundsAtExecution s.pc (packXKK 0xF x 0x33))) :=
  if_neg (by rw [rangeInMemory_ea s 3 (by omega)]; simpa using h)

theorem exec_regDump_of_fits (x : Reg) (s : State) (h : s.ea x.val ≤ 0xFFF) :
    exec (.regDump x) s = .next (s.advance.setMem (s.mem.writeBytes (s.ea 0) (s.regsUpTo x))) :=
  if_pos (by rw [rangeInMemory_ea s _ (Nat.succ_pos _)]; exact decide_eq_true h)

theorem exec_regDump_of_beyond (x : Reg) (s : State) (h : 0xFFF < s.ea x.val) :
    exec (.regDump x) s = .next (s.raise (.boundsAtExecution s.pc (packXKK 0xF x 0x55))) :=
  if_neg (by rw [rangeInMemory_ea s _ (Nat.succ_pos _)]; simpa using h)

theorem exec_regLoad_of_fits (x : Reg) (s : State) (h : s.ea x.val ≤ 0xFFF) :
    exec (.regLoad x) s = .next (s.advance.loadRegs x) :=
  if_pos (by rw [rangeInMemory_ea s _ (Nat.succ_pos _)]; exact decide_eq_true h)

theorem exec_regLoad_of_beyond (x : Reg) (s : State) (h : 0xFFF < s.ea x.val) :
    exec (.regLoad x) s = .next (s.raise (.boundsAtExecution s.pc (packXKK 0xF x 0x65))) :=
  if_neg (by rw [rangeInMemory_ea s _ (Nat.succ_pos _)]; simpa using h)

/-! ## Stored bytes -/

theorem ea_eq_add (s : State) (k : Nat) : s.ea k = s.ea 0 + k := rfl

/-- The digits BCD_STORE writes, by their place. -/
theorem read_bcd (s : State) (m : Memory) (b : Byte) (k : Nat) (h : k < 3) :
    (m.writeBytes (s.ea 0) (bcdDigits b)).read (s.ea k) = (bcdDigits b)[k] := by
  rw [ea_eq_add s k]
  exact read_writeBytes_inside (bcdDigits b) m _ k h

/-- The register REG_DUMP writes at each place. -/
theorem read_dumped (s : State) (m : Memory) (x j : Reg) (h : j ≤ x) :
    (m.writeBytes (s.ea 0) (s.regsUpTo x)).read (s.ea j.val) = s.getV j := by
  have hlt : j.val < (s.regsUpTo x).length := by
    rw [length_regsUpTo]; exact Nat.lt_succ_of_le h
  rw [ea_eq_add s j.val, read_writeBytes_inside _ _ _ _ hlt]
  exact Option.some.inj ((List.getElem?_eq_getElem hlt).symm.trans (getElem?_regsUpTo s x j h))

/-- Settles O45 (R233, D36). -/
theorem bcdStoreResult : Obligations.BcdStoreResult := by
  refine fun x s => ⟨fun h => ?fits, fun h => ?beyond⟩
  case fits =>
    have hb := (s.getV x).isLt
    have hexec := exec_bcdStore_of_fits x s h
    refine ⟨_, hexec, ?_, ?_, ?_, fun a ha => ?_, rfl, frame_of_advanced (.bcdStore x) s _ hexec rfl⟩
    · rw [setMem_mem, read_bcd s s.mem _ 0 (by omega)]
      exact (BitVec.toNat_ofNat ..).trans (by omega)
    · rw [setMem_mem, read_bcd s s.mem _ 1 (by omega)]
      exact (BitVec.toNat_ofNat ..).trans (by omega)
    · rw [setMem_mem, read_bcd s s.mem _ 2 (by omega)]
      exact (BitVec.toNat_ofNat ..).trans (by omega)
    · refine read_writeBytes_outside _ _ _ _ (ha.imp_right fun hgt => ?_)
      exact (Nat.succ_le_of_lt hgt : s.ea 2 + 1 ≤ a)
  case beyond =>
    rw [exec_bcdStore_of_beyond x s h, ofNat_packXKK_fixed 0xF x 0x33 0xF033 rfl]
    exact raise_raises s _

/-- Settles O46 (R234, D14, D36). -/
theorem regDumpResult : Obligations.RegDumpResult := by
  refine fun x s => ⟨fun h => ?fits, fun h => ?beyond⟩
  case fits =>
    have hexec := exec_regDump_of_fits x s h
    refine ⟨_, hexec, fun j hj => read_dumped s s.mem x j hj, fun a ha => ?_, rfl,
      frame_of_advanced (.regDump x) s _ hexec rfl⟩
    refine read_writeBytes_outside _ _ _ _ (ha.imp_right fun hgt => ?_)
    rw [length_regsUpTo]
    exact Nat.succ_le_of_lt hgt
  case beyond =>
    rw [exec_regDump_of_beyond x s h, ofNat_packXKK_fixed 0xF x 0x55 0xF055 rfl]
    exact raise_raises s _

/-- Settles O47 (R235, D14, D36). -/
theorem regLoadResult : Obligations.RegLoadResult := by
  refine fun x s => ⟨fun h => ?fits, fun h => ?beyond⟩
  case fits =>
    have hexec := exec_regLoad_of_fits x s h
    exact ⟨_, hexec, fun j hj => (getV_loadRegs s.advance x j).trans (if_pos hj),
      fun j hj => (getV_loadRegs s.advance x j).trans (if_neg (not_le.2 hj)), rfl,
      frame_of_advanced (.regLoad x) s _ hexec rfl⟩
  case beyond =>
    rw [exec_regLoad_of_beyond x s h, ofNat_packXKK_fixed 0xF x 0x65 0xF065 rfl]
    exact raise_raises s _

/-- Settles O48 (R234, R235): the load reads, from the same addresses, the bytes the dump wrote. -/
theorem dumpThenLoadRestores : Obligations.DumpThenLoadRestores := by
  intro x s t u hfits hdump hindex hmem
  cases (exec_regDump_of_fits x s hfits).symm.trans hdump
  have hea : ∀ k, u.ea k = s.ea k := fun k => congrArg (fun a : Word => a.toNat + k) hindex
  refine ⟨_, exec_regLoad_of_fits x u (hea x.val ▸ hfits), fun j hj => ?_⟩
  calc (u.advance.loadRegs x).getV j = u.mem.read (u.ea j.val) := (getV_loadRegs u.advance x j).trans (if_pos hj)
    _ = (s.mem.writeBytes (s.ea 0) (s.regsUpTo x)).read (s.ea j.val) := by rw [hmem, hea]; rfl
    _ = s.getV j := read_dumped s s.mem x j hj

/-- Settles O49 (R85, R93, D1): the two bytes of the fetched word are two stored registers. -/
theorem dumpedBytesAreFetched : Obligations.DumpedBytesAreFetched := by
  intro x s t u j k hfits hdump hkx hkj hmem hpc
  cases (exec_regDump_of_fits x s hfits).symm.trans hdump
  have hjx : j ≤ x := le_trans (Fin.le_def.2 (by omega)) hkx
  have hnext : s.ea j.val + 1 = s.ea k.val := by rw [hkj]; rfl
  rw [toNat_fetchWord, hmem, hpc, hnext, setMem_mem, read_dumped s s.mem x j hjx, read_dumped s s.mem x k hkx]

end Sys2Proof.Machine
end

section
/-! SUPPORT. Keys, timers and the host's transactions (44_keys_timers.md R290 to R300, 10_state.md R64 to R69). -/

namespace Sys2Proof.Machine

/-! ## Key skips (R290 to R292) -/

theorem keySkip_of_le (i : Instr) (x : Reg) (cond : Bool → Bool) (s : State) (h : (s.getV x).toNat < 16) :
    keySkip i x cond s = .next (s.advance.skipIf (cond (s.keys.getLsbD (s.getV x).toNat))) := by
  rw [keySkip, keyIndex_of_le _ h]; rfl

theorem keySkip_of_gt (i : Instr) (x : Reg) (cond : Bool → Bool) (s : State) (h : ¬ (s.getV x).toNat < 16) :
    keySkip i x cond s = .next (s.raise (.keyRange s.pc (encode s.cfg.alu8Map i) (s.getV x))) := by
  rw [keySkip, keyIndex_of_gt _ h]

theorem raises_of_eq_raise {o : Host.Outcome State Fault Refusal} {s : State} {r : FaultRecord}
    (h : o = .next (s.raise r)) : Raises o s r := h ▸ raise_raises s r

theorem skipIf_true_pc (s : State) : (s.advance.skipIf true).pc = s.pc + 4 := pc_add_four s.pc

/-- Settles O54 (R290 to R292, D10, D28, D32). -/
theorem keySkipResults : Obligations.KeySkipResults := by
  refine fun x s => ⟨fun h => ?held, fun h => ?range⟩
  case held =>
    have hlt : (s.getV x).toNat < 16 := Nat.lt_succ_of_le h
    refine ⟨⟨_, keySkip_of_le (.skipIfKey x) x (fun held => held) s hlt, fun hk => ?_, fun hk => ?_,
        skipIf_onlyChanges s _⟩,
      ⟨_, keySkip_of_le (.skipIfNotKey x) x (fun held => !held) s hlt, fun hk => ?_, fun hk => ?_,
        skipIf_onlyChanges s _⟩⟩
    all_goals rw [hk]
    · exact skipIf_true_pc s
    · rfl
    · exact skipIf_true_pc s
    · rfl
  case range =>
    have hge : ¬ (s.getV x).toNat < 16 := Nat.not_lt.2 h
    rw [ofNat_packXKK_fixed 0xE x 0x9E 0xE09E rfl, ofNat_packXKK_fixed 0xE x 0xA1 0xE0A1 rfl]
    exact ⟨raises_of_eq_raise (keySkip_of_gt (.skipIfKey x) x (fun held => held) s hge),
      raises_of_eq_raise (keySkip_of_gt (.skipIfNotKey x) x (fun held => !held) s hge)⟩

/-! ## KEY_WAIT (R293) -/

theorem awaitKey_onlyChanges (s : State) (x : Reg) : OnlyChanges [.pc, .run, .waitX] s (s.advance.awaitKey x) := by
  intro p hp; cases p <;> simp_all [Unchanged]

/-- Settles O55 (R293, D8, D9, D10): the branches of KEY_WAIT, each by its mode and the keys it reads. -/
theorem keyWaitResult : Obligations.KeyWaitResult := by
  intro x s
  obtain ⟨hm, ⟨k, hk, e⟩ | ⟨hk, e⟩⟩ | ⟨hm, ⟨hlt, hheld, e⟩ | ⟨hlt, hfree, e⟩ | ⟨hge, e⟩⟩ := exec_keyWait_cases x s
  · refine ⟨fun _ => ⟨_, e, rfl, fun hkeys => ?_, fun k' hk' hlow => ?_⟩, by simp [hm], by simp [hm]⟩
    · cases hk.symm.trans (lowestKey_of_no_keys s hkeys)
    · cases hk.symm.trans ((lowestKey_eq_some_iff s k').2 ⟨hk', hlow⟩)
      exact ⟨getV_setV_self _ x _, setV_onlyRegs s x _, fun p hp => by cases p <;> simp_all [Unchanged]⟩
  · refine ⟨fun _ => ⟨_, e, rfl, fun _ => ⟨rfl, rfl, awaitKey_onlyChanges s x⟩, fun k' hk' _ => ?_⟩,
      by simp [hm], by simp [hm]⟩
    rw [(lowestKey_eq_none_iff s).1 hk k'] at hk'
    cases hk'
  · refine ⟨by simp [hm], fun _ _ => ⟨_, e, rfl, fun _ => setPc_onlyChanges s _, fun hfree => ?_⟩, fun _ hgt => ?_⟩
    · cases hheld.symm.trans hfree
    · omega
  · refine ⟨by simp [hm], fun _ _ => ⟨_, e, rfl, fun hheld => ?_, fun _ => ⟨rfl, rfl, awaitKey_onlyChanges s x⟩⟩,
      fun _ hgt => ?_⟩
    · cases hfree.symm.trans hheld
    · omega
  · refine ⟨by simp [hm], fun _ hle => ?_, fun _ _ => ?_⟩
    · omega
    · rw [e, ofNat_packXKK_fixed 0xF x 0x0A 0xF00A rfl]
      exact raise_raises s _

/-! ## Timers (R297 to R299) -/

/-- Settles O56 (R297, R298, D21). -/
theorem timerSetResults : Obligations.TimerSetResults := fun x s =>
  ⟨⟨_, rfl, rfl, rfl, frame_of_advanced (.timerSetDelay x) s _ rfl rfl⟩,
   ⟨_, rfl, rfl, rfl, frame_of_advanced (.timerSetSound x) s _ rfl rfl⟩⟩

/-- A tick of a run that goes on: each timer counts down, RUN stays. -/
theorem tickTimers_of_live (s : State) (h : s.run = .running ∨ s.run = .awaitingKey) :
    tickTimers s = { s with dt := countDown s.dt, st := countDown s.st } := by
  obtain h | h := h <;> simp [tickTimers, h]

theorem countTimers_onlyChanges (s : State) (d n : Byte) :
    OnlyChanges [.delay, .sound] s { s with dt := d, st := n } := by
  intro p hp; cases p <;> simp_all [Unchanged, State.getV]

/-- Settles O57 (R299, D24, D25, S15): by induction on the ticks; one tick takes one from each timer. -/
theorem ticksCountTimersDown : Obligations.TicksCountTimersDown := by
  intro n
  induction n with
  | zero => exact fun s _ => ⟨s, rfl, rfl, rfl, onlyChanges_refl _ s⟩
  | succ n ih =>
    intro s h
    obtain ⟨u, hu, hdt, hst, hframe⟩ := ih { s with dt := countDown s.dt, st := countDown s.st } h
    refine ⟨u, ?_, ?_, ?_, (countTimers_onlyChanges s _ _).trans hframe⟩
    · rw [List.replicate_succ, callAll, HostCall.after, tickTimers_of_live s h]
      exact hu
    · rw [hdt, toNat_countDown]; omega
    · rw [hst, toNat_countDown]; omega

/-! ## Host inputs and reads (R64 to R69, R300) -/

theorem getLsbD_keyMask (k j : Key) : (keyMask k).getLsbD j.val = decide (j = k) := by
  rw [keyMask, BitVec.getLsbD_twoPow, Bool.eq_iff_iff]
  simp [Fin.ext_iff, eq_comm, k.isLt]

/-- Settles O58 (R64, R65, D9, D23): one bit of the mask is set or cleared; quit goes by the run state. -/
theorem hostInputResults : Obligations.HostInputResults := by
  refine fun k s => ⟨⟨_, rfl, fun j => ?set, setKey_onlyChanges k s⟩, ⟨_, rfl, fun j => ?unset, unsetKey_onlyChanges k s⟩,
    ⟨_, rfl, ?quit⟩⟩
  case set =>
    rw [setKey, BitVec.getLsbD_or, getLsbD_keyMask, Bool.or_comm]
  case unset =>
    rw [unsetKey, BitVec.getLsbD_and, BitVec.getLsbD_not, getLsbD_keyMask, Bool.and_comm]
    simp
  case quit =>
    refine ⟨fun p hp => ?_, fun h => ?_, quit_of_ended s⟩
    · unfold quit
      split <;> cases p <;> simp_all [Unchanged, State.getV]
    · obtain h | h := h <;> simp [quit, h]

theorem getElem?_grid (c : Config) (sc : Screen) (py : Nat) (h : py < c.height) :
    (sc.grid c)[py]? = some ((List.range c.width).map fun px => sc.getPixel ⟨px, py⟩) := by
  simp [Screen.grid, h]

/-- Settles O60 (R67, R69, R300, D19, D22, D30). -/
theorem hostReadResults : Obligations.HostReadResults := fun s =>
  ⟨rfl, rfl, rfl, rfl, ⟨_, rfl, by simp [readBuffer, Screen.grid], fun py hpy =>
    ⟨_, getElem?_grid s.cfg s.screen py hpy, by simp, fun px hpx => by simp [hpx]⟩⟩,
    ⟨_, rfl, rfl, readBuffer_onlyChanges s⟩⟩

end Sys2Proof.Machine
end

section
/-! SUPPORT. CLEAR and DRAW (43_display.md R262 to R264): a DRAW as one run of the sprite's numbered columns, how often a
pixel is plotted, the collision flag, and the draw that undoes a draw. -/

namespace Sys2Proof.Machine

/-- Settles O50 (R262, D18). -/
theorem clearResult : Obligations.ClearResult := fun s =>
  ⟨_, rfl, getPixel_blank, rfl, rfl, frame_of_advanced .clear s _ rfl rfl⟩

/-! ## Numbers that land on a pixel -/

theorem landings_eq_zero_iff (bit : Nat → Bool) (at' : Nat → Pixel) (m : Nat) (p : Pixel) :
    landings bit at' m p = 0 ↔ ∀ k, k < m → bit k = true → at' k ≠ p := by
  simp [landings]

/-- When no two of the first m numbers land on the same pixel, a pixel is plotted at most once. -/
theorem landings_le_one (bit : Nat → Bool) (at' : Nat → Pixel) (m : Nat) (p : Pixel)
    (hinj : ∀ j k, j < m → k < m → at' j = at' k → j = k) : landings bit at' m p ≤ 1 := by
  induction m with
  | zero => simp [landings]
  | succ m ih =>
    rw [landings_succ]
    by_cases hlast : (bit m && decide (at' m = p)) = true
    · obtain ⟨_, hm⟩ : bit m = true ∧ at' m = p := by simpa using hlast
      have hnone : landings bit at' m p = 0 := (landings_eq_zero_iff bit at' m p).2 fun k hk _ he =>
        absurd (hinj k m (by omega) (by omega) (he.trans hm.symm)) (by omega)
      rw [if_pos hlast, hnone]
    · rw [if_neg hlast]
      exact ih fun j k hj hk => hinj j k (by omega) (by omega)

/-- Then it is plotted an odd number of times exactly when some set bit lands on it. -/
theorem landings_odd_iff (bit : Nat → Bool) (at' : Nat → Pixel) (m : Nat) (p : Pixel)
    (hinj : ∀ j k, j < m → k < m → at' j = at' k → j = k) :
    (landings bit at' m p % 2 == 1) = true ↔ ∃ k, k < m ∧ bit k = true ∧ at' k = p := by
  have hle := landings_le_one bit at' m p hinj
  have hzero := landings_eq_zero_iff bit at' m p
  rw [beq_iff_eq]
  constructor
  · intro hodd
    by_contra hnone
    have := hzero.2 fun k hk hb he => hnone ⟨k, hk, hb, he⟩
    omega
  · rintro ⟨k, hk, hb, he⟩
    have : landings bit at' m p ≠ 0 := fun h0 => hzero.1 h0 k hk hb he
    omega

/-- Plotting the same numbers twice gives every pixel back. -/
theorem getPixel_plotNumbers_twice (bit : Nat → Bool) (at' : Nat → Pixel) (m : Nat) (sc : Screen) (p : Pixel) :
    (plotNumbers bit at' m (plotNumbers bit at' m sc).1).1.getPixel p = sc.getPixel p := by
  rw [getPixel_plotNumbers, getPixel_plotNumbers, Bool.xor_assoc, Bool.xor_self, Bool.xor_false]

/-! ## DRAW -/

/-- The screen and the collision a DRAW gives. -/
def drawn (x y : Reg) (n : Nibble) (s : State) : Screen × Bool :=
  plotNumbers (spriteBit s) (spriteAt s x y) (8 * n.toNat) s.screen

/-- The state after a DRAW whose sprite lies in memory. -/
def afterDraw (x y : Reg) (n : Nibble) (s : State) : State :=
  (s.advance.show (drawn x y n s).1).setFlag (drawn x y n s).2

theorem sprite_fits_iff (n : Nibble) (s : State) :
    rangeInMemory (s.ea 0) n.toNat = true ↔ n.toNat = 0 ∨ s.ea (n.toNat - 1) ≤ 0xFFF := by
  rw [rangeInMemory_iff]; simp only [State.ea]; omega

theorem exec_draw_of_fits (x y : Reg) (n : Nibble) (s : State) (h : n.toNat = 0 ∨ s.ea (n.toNat - 1) ≤ 0xFFF) :
    exec (.draw x y n) s = .next (afterDraw x y n s) :=
  draw_of_fits x y n s ((sprite_fits_iff n s).2 h)

theorem exec_draw_of_beyond (x y : Reg) (n : Nibble) (s : State) (hn : n.toNat ≠ 0) (h : 0xFFF < s.ea (n.toNat - 1)) :
    exec (.draw x y n) s = .next (s.raise (.boundsAtExecution s.pc (packXYN 0xD x y n))) := by
  have hout : ¬ rangeInMemory (s.ea 0) n.toNat = true := fun hr => ((sprite_fits_iff n s).1 hr).elim hn (Nat.not_le.2 h)
  exact if_neg hout

theorem getPixel_afterDraw (x y : Reg) (n : Nibble) (s : State) (p : Pixel) :
    (afterDraw x y n s).screen.getPixel p = (s.screen.getPixel p ^^ (plotCount s x y (8 * n.toNat) p % 2 == 1)) :=
  getPixel_plotNumbers (spriteBit s) (spriteAt s x y) _ s.screen p

theorem flag_afterDraw (x y : Reg) (n : Nibble) (s : State) :
    (afterDraw x y n s).getV 15 = flagByte (drawn x y n s).2 := getV_setFlag ..

theorem afterDraw_onlyRegs (x y : Reg) (n : Nibble) (s : State) : OnlyRegs [15] s (afterDraw x y n s) :=
  fun j hj => (getV_setFlag _ j _).trans (if_neg (by simpa [flagReg] using hj))

theorem flagByte_eq_one_iff (c : Bool) : flagByte c = 1 ↔ c = true := by
  cases c <;> decide

theorem flag_afterDraw_eq_one_iff (x y : Reg) (n : Nibble) (s : State) :
    (afterDraw x y n s).getV 15 = 1 ↔ ∃ k, k < 8 * n.toNat ∧ spriteBit s k = true ∧
      (s.screen.getPixel (spriteAt s x y k) ^^ (plotCount s x y k (spriteAt s x y k) % 2 == 1)) = true := by
  rw [flag_afterDraw, flagByte_eq_one_iff]
  exact hit_plotNumbers (spriteBit s) (spriteAt s x y) _ s.screen

/-- Settles O51 (R263, D16, D17, D36): pixels and flag by the counts of the numbered columns. -/
theorem drawResult : Obligations.DrawResult := by
  refine fun x y n s => ⟨fun h => ?fits, fun hn h => ?beyond⟩
  case fits =>
    have hexec := exec_draw_of_fits x y n s h
    refine ⟨_, hexec, getPixel_afterDraw x y n s, ?_, flag_afterDraw_eq_one_iff x y n s, afterDraw_onlyRegs x y n s, rfl,
      rfl, frame_of_advanced (.draw x y n) s _ hexec rfl⟩
    rw [flag_afterDraw]
    cases (drawn x y n s).2 <;> decide
  case beyond =>
    rw [ofNat_packXYN 0xD x y n 0xD000 rfl]
    exact raises_of_eq_raise (exec_draw_of_beyond x y n s hn h)

/-! ## Wide screens -/

/-- The numbers of one sprite land on different pixels of a wide screen. -/
theorem spriteAt_injective_below (s : State) (x y : Reg) (n : Nibble) (hw : 8 ≤ s.cfg.width) (hh : 15 ≤ s.cfg.height)
    (j k : Nat) (hj : j < 8 * n.toNat) (hk : k < 8 * n.toNat) (e : spriteAt s x y j = spriteAt s x y k) : j = k :=
  have := n.isLt
  spriteAt_injective s x y j k hw hh (by omega) (by omega) e

theorem plotCount_odd_iff (s : State) (x y : Reg) (n : Nibble) (hw : 8 ≤ s.cfg.width) (hh : 15 ≤ s.cfg.height)
    (p : Pixel) : (plotCount s x y (8 * n.toNat) p % 2 == 1) = true ↔
      ∃ k, k < 8 * n.toNat ∧ spriteBit s k = true ∧ spriteAt s x y k = p :=
  landings_odd_iff (spriteBit s) (spriteAt s x y) _ p (spriteAt_injective_below s x y n hw hh)

/-- A number meets the pixel it lands on as it was before the DRAW. -/
theorem plotCount_at_turn (s : State) (x y : Reg) (n : Nibble) (hw : 8 ≤ s.cfg.width) (hh : 15 ≤ s.cfg.height)
    (k : Nat) (hk : k < 8 * n.toNat) : plotCount s x y k (spriteAt s x y k) = 0 := by
  refine (landings_eq_zero_iff (spriteBit s) (spriteAt s x y) k _).2 fun j hj _ he => ?_
  have := spriteAt_injective_below s x y n hw hh j k (by omega) hk he
  omega

/-- Settles O52 (R263, R264, D16): each pixel is plotted at most once. -/
theorem drawCollisionOnWideScreens : Obligations.DrawCollisionOnWideScreens := by
  intro x y n s t hw hh hfits hexec
  cases (exec_draw_of_fits x y n s hfits).symm.trans hexec
  refine ⟨fun p => ?pixel, (flag_afterDraw_eq_one_iff x y n s).trans (exists_congr fun k => ?flag)⟩
  case pixel =>
    rw [getPixel_afterDraw, ← plotCount_odd_iff s x y n hw hh p]
    cases s.screen.getPixel p <;> simp
  case flag =>
    refine and_congr_right fun hk => and_congr_right fun _ => ?_
    rw [plotCount_at_turn s x y n hw hh k hk]; simp

/-! ## Twice -/

/-- A state with the same memory and I has the same sprite. -/
theorem spriteBit_congr (s t : State) (hindex : t.index = s.index) (hmem : t.mem = s.mem) :
    spriteBit t = spriteBit s := by
  funext k; rw [spriteBit, spriteBit, hindex, hmem]

theorem spriteAt_congr (s t : State) (x y : Reg) (hcfg : t.cfg = s.cfg) (hx : t.getV x = s.getV x)
    (hy : t.getV y = s.getV y) : spriteAt t x y = spriteAt s x y := by
  funext k; rw [spriteAt, spriteAt, hcfg, hx, hy]

/-- A DRAW leaves its origin where it was, unless a coordinate is VF and its value changes. -/
theorem spriteAt_afterDraw (x y : Reg) (n : Nibble) (s : State)
    (h : (x ≠ 15 ∧ y ≠ 15) ∨ (afterDraw x y n s).getV 15 = s.getV 15) :
    spriteAt (afterDraw x y n s) x y = spriteAt s x y := by
  have keep : ∀ r : Reg, r ≠ 15 ∨ (afterDraw x y n s).getV 15 = s.getV 15 →
      (afterDraw x y n s).getV r = s.getV r := by
    intro r hr
    by_cases hf : r = 15
    · subst hf; exact hr.resolve_left fun hne => hne rfl
    · exact afterDraw_onlyRegs x y n s r (by simpa using hf)
  exact spriteAt_congr s _ x y rfl (keep x (h.imp_left And.left)) (keep y (h.imp_left And.right))

/-- On a wide screen a DRAW without a collision turns on every pixel a set bit lands on. -/
theorem on_of_draw_without_collision (x y : Reg) (n : Nibble) (s : State) (hw : 8 ≤ s.cfg.width) (hh : 15 ≤ s.cfg.height)
    (hfits : n.toNat = 0 ∨ s.ea (n.toNat - 1) ≤ 0xFFF) (hclear : (afterDraw x y n s).getV 15 = 0) (k : Nat)
    (hk : k < 8 * n.toNat) (hb : spriteBit s k = true) :
    (afterDraw x y n s).screen.getPixel (spriteAt s x y k) = true := by
  obtain ⟨hpixel, hflag⟩ := drawCollisionOnWideScreens x y n s _ hw hh hfits (exec_draw_of_fits x y n s hfits)
  have hoff : s.screen.getPixel (spriteAt s x y k) = false := by
    by_contra hon
    have hone := hflag.2 ⟨k, hk, hb, by simpa using hon⟩
    exact absurd (hclear.symm.trans hone) (by decide)
  have hne := (hpixel (spriteAt s x y k)).2 ⟨k, hk, hb, rfl⟩
  rw [hoff] at hne
  simpa using hne

/-- Settles O53 (R263, D16, S12): the second draw plots the same numbers as the first, so it undoes it; on a wide screen
a set bit then meets the pixel the first draw turned on. -/
theorem drawTwiceRestoresScreen : Obligations.DrawTwiceRestoresScreen := by
  intro x y n s t hfits hexec
  cases (exec_draw_of_fits x y n s hfits).symm.trans hexec
  have hsecond := exec_draw_of_fits x y n (afterDraw x y n s) hfits
  refine ⟨_, hsecond, fun horigin => ?_⟩
  have hbit : spriteBit (afterDraw x y n s) = spriteBit s := spriteBit_congr s _ rfl rfl
  have hat := spriteAt_afterDraw x y n s horigin
  refine ⟨fun p => ?screen, fun hw hh hclear hset => ?flag⟩
  case screen =>
    calc (afterDraw x y n (afterDraw x y n s)).screen.getPixel p
        = (plotNumbers (spriteBit (afterDraw x y n s)) (spriteAt (afterDraw x y n s) x y) (8 * n.toNat)
            (drawn x y n s).1).1.getPixel p := rfl
      _ = s.screen.getPixel p := by rw [hbit, hat]; exact getPixel_plotNumbers_twice ..
  case flag =>
    obtain ⟨k, hk, hb⟩ := hset
    refine (drawCollisionOnWideScreens x y n (afterDraw x y n s) _ hw hh hfits hsecond).2.2 ⟨k, hk, ?_, ?_⟩
    · rw [hbit]; exact hb
    · rw [hat]; exact on_of_draw_without_collision x y n s hw hh hfits hclear k hk hb

end Sys2Proof.Machine
end

section
/-! SUPPORT. Which calls and instructions change a component (10_state.md R34 to R41, 20_memory.md R80 and R88, 41_alu.md
R180, 44_keys_timers.md R301): read off the footprints, then made exact where the spec gives the place or the value. -/

namespace Sys2Proof.Machine

/-! ## From a changed component to the instruction that ran -/

/-- A component that no call but a step writes, and no fault, changes only in a step that runs an instruction with it in
its footprint. -/
theorem changed_by_instruction (c : HostCall) (s t : State) (p : Part) (h : c.after s = .next t)
    (hp : ¬ Unchanged s t p) (hcall : p ∉ [.keys, .redraw, .run, .delay, .sound]) (hfault : p ≠ .fault)
    (hregs : p ≠ .regs) :
    c = .step ∧ s.run = .running ∧ ∃ i, s.fetchDecode = .ok i ∧ exec i s = .next t ∧ p ∈ footprint i := by
  by_cases hc : c = .step
  · subst hc
    have hrun : p ≠ .run := fun e => hcall (by simp [e])
    obtain ⟨hr, i, hi, hx, _, hmem⟩ := step_changes s t p h hp hfault hrun hregs
    exact ⟨rfl, hr, i, hi, hx, hmem⟩
  · exact absurd ((call_footprint c s t h hc).1 p hcall) hp

theorem sp_or_stack_mem_footprint (i : Instr) (h : .sp ∈ footprint i ∨ .stack ∈ footprint i) :
    i = .ret ∨ ∃ nnn, i = .call nnn := by
  cases i <;> simp_all [footprint]

theorem screen_mem_footprint (i : Instr) (h : .screen ∈ footprint i) : i = .clear ∨ ∃ x y n, i = .draw x y n := by
  cases i <;> simp_all [footprint]

theorem mem_mem_footprint (i : Instr) (h : .mem ∈ footprint i) : ∃ x, i = .bcdStore x ∨ i = .regDump x := by
  cases i <;> simp_all [footprint]

theorem keys_notMem_footprint (i : Instr) : .keys ∉ footprint i := by
  cases i <;> simp [footprint]

theorem delay_mem_footprint (i : Instr) (h : .delay ∈ footprint i) : ∃ x, i = .timerSetDelay x := by
  cases i <;> simp_all [footprint]

theorem sound_mem_footprint (i : Instr) (h : .sound ∈ footprint i) : ∃ x, i = .timerSetSound x := by
  cases i <;> simp_all [footprint]

/-! ## I, the stack, the screen, the keys -/

/-- Settles O23 (R34, R35, R36, D14). -/
theorem indexAndStackWriters : Obligations.IndexAndStackWriters := by
  refine fun c s t h => ⟨fun hne => ?index, fun hne => ?stack⟩
  case index =>
    obtain ⟨hc, hrun, i, hi, _, hmem⟩ := changed_by_instruction c s t .index h hne (by simp) (by simp) (by simp)
    refine ⟨hc, hrun, ?_⟩
    obtain ⟨nnn, rfl⟩ | ⟨x, rfl⟩ | ⟨x, rfl⟩ := index_mem_footprint i hmem
    · exact .inl ⟨nnn, hi⟩
    · exact .inr (.inl ⟨x, hi⟩)
    · exact .inr (.inr ⟨x, hi⟩)
  case stack =>
    have hstep : c = .step ∧ s.run = .running ∧ ∃ i, s.fetchDecode = .ok i ∧
        (.sp ∈ footprint i ∨ .stack ∈ footprint i) := by
      obtain hsp | hst := not_and_or.1 hne
      · obtain ⟨hc, hrun, i, hi, _, hmem⟩ := changed_by_instruction c s t .sp h hsp (by simp) (by simp) (by simp)
        exact ⟨hc, hrun, i, hi, .inl hmem⟩
      · obtain ⟨hc, hrun, i, hi, _, hmem⟩ := changed_by_instruction c s t .stack h hst (by simp) (by simp) (by simp)
        exact ⟨hc, hrun, i, hi, .inr hmem⟩
    obtain ⟨hc, hrun, i, hi, hmem⟩ := hstep
    refine ⟨hc, hrun, ?_⟩
    obtain rfl | ⟨nnn, rfl⟩ := sp_or_stack_mem_footprint i hmem
    · exact .inl hi
    · exact .inr ⟨nnn, hi⟩

/-- Settles O24 (R39). -/
theorem screenWrittenOnlyByClearAndDraw : Obligations.ScreenWrittenOnlyByClearAndDraw := by
  intro c s t h hne
  obtain ⟨hc, hrun, i, hi, _, hmem⟩ := changed_by_instruction c s t .screen h hne (by simp) (by simp) (by simp)
  refine ⟨hc, hrun, ?_⟩
  obtain rfl | ⟨x, y, n, rfl⟩ := screen_mem_footprint i hmem
  · exact .inl hi
  · exact .inr ⟨x, y, n, hi⟩

/-- Settles O25 (R40): no footprint has the keys, and of the other calls only the two key updates write them. -/
theorem keysWrittenOnlyByHost : Obligations.KeysWrittenOnlyByHost := by
  intro c s t h hne
  by_cases hc : c = .step
  · subst hc
    obtain ⟨_, i, _, _, _, hmem⟩ := step_changes s t .keys h hne (by simp) (by simp) (by simp)
    exact absurd hmem (keys_notMem_footprint i)
  · exact (call_footprint c s t h hc).2.1 hne

/-! ## The timers -/

/-- Settles O26 (R301). -/
theorem timersChangeOnlyByTicksAndSetters : Obligations.TimersChangeOnlyByTicksAndSetters := by
  intro c s t h
  by_cases hc : c = .step
  · subst hc
    refine ⟨fun hne => .inr ⟨rfl, ?_⟩, fun hne => .inr ⟨rfl, ?_⟩⟩
    · obtain ⟨hrun, i, hi, hx, _, hmem⟩ := step_changes s t .delay h hne (by simp) (by simp) (by simp)
      obtain ⟨x, rfl⟩ := delay_mem_footprint i hmem
      cases hx
      exact ⟨hrun, x, hi, rfl⟩
    · obtain ⟨hrun, i, hi, hx, _, hmem⟩ := step_changes s t .sound h hne (by simp) (by simp) (by simp)
      obtain ⟨x, rfl⟩ := sound_mem_footprint i hmem
      cases hx
      exact ⟨hrun, x, hi, rfl⟩
  · obtain ⟨_, _, htick, _⟩ := call_footprint c s t h hc
    exact ⟨fun hne => .inl (htick fun hu => hne hu.1), fun hne => .inl (htick fun hu => hne hu.2)⟩

/-! ## Memory -/

/-- A byte a run of writes changed lies in its range. -/
theorem writeBytes_changes_inside (bs : List Byte) (m : Memory) (base a : Nat)
    (h : (m.writeBytes base bs).read a ≠ m.read a) : base ≤ a ∧ a < base + bs.length := by
  by_contra hout
  exact h (read_writeBytes_outside bs m base a (by omega))

theorem bcdStore_changes_inside (x : Reg) (s t : State) (a : Nat) (h : exec (.bcdStore x) s = .next t)
    (hne : t.mem.read a ≠ s.mem.read a) : s.ea 0 ≤ a ∧ a ≤ s.ea 2 := by
  obtain hfits | hgt := Nat.lt_or_ge 0xFFF (s.ea 2) |>.symm
  · cases (exec_bcdStore_of_fits x s hfits).symm.trans h
    obtain ⟨hlo, hhi⟩ := writeBytes_changes_inside _ _ _ _ hne
    exact ⟨hlo, Nat.le_of_lt_succ hhi⟩
  · cases (exec_bcdStore_of_beyond x s hgt).symm.trans h
    exact absurd rfl hne

theorem regDump_changes_inside (x : Reg) (s t : State) (a : Nat) (h : exec (.regDump x) s = .next t)
    (hne : t.mem.read a ≠ s.mem.read a) : s.ea 0 ≤ a ∧ a ≤ s.ea x.val := by
  obtain hfits | hgt := Nat.lt_or_ge 0xFFF (s.ea x.val) |>.symm
  · cases (exec_regDump_of_fits x s hfits).symm.trans h
    obtain ⟨hlo, hhi⟩ := writeBytes_changes_inside _ _ _ _ hne
    rw [length_regsUpTo] at hhi
    exact ⟨hlo, Nat.le_of_lt_succ hhi⟩
  · cases (exec_regDump_of_beyond x s hgt).symm.trans h
    exact absurd rfl hne

/-- Settles O27 (R80, R88). -/
theorem memoryWrittenOnlyByStores : Obligations.MemoryWrittenOnlyByStores := by
  intro c s t a h hne
  have hu : ¬ Unchanged s t .mem := fun hu => hne (hu a)
  obtain ⟨hc, hrun, i, hi, hx, hmem⟩ := changed_by_instruction c s t .mem h hu (by simp) (by simp) (by simp)
  obtain ⟨x, rfl | rfl⟩ := mem_mem_footprint i hmem
  · obtain ⟨hlo, hhi⟩ := bcdStore_changes_inside x s t a hx hne
    exact ⟨hc, hrun, hlo, x, .inl ⟨hi, hhi⟩⟩
  · obtain ⟨hlo, hhi⟩ := regDump_changes_inside x s t a hx hne
    exact ⟨hc, hrun, hlo, x, .inr ⟨hi, hhi⟩⟩

/-! ## VF -/

/-- An instruction without the registers in its footprint changes none of them. -/
theorem getV_of_regs_notMem (i : Instr) (s t : State) (j : Reg) (h : exec i s = .next t) (hi : .regs ∉ footprint i) :
    t.getV j = s.getV j := by
  obtain hf | ⟨r, rfl, _⟩ := exec_footprint i s t h
  · exact hf .regs hi j
  · exact raise_getV s r j

/-- A register write that changes another register's value wrote that register. -/
theorem eq_of_setV_changes (s : State) (x j : Reg) (b : Byte) (h : (s.setV x b).getV j ≠ s.getV j) : x = j := by
  by_contra hne
  exact h (getV_setV_ne s x j b (Ne.symm hne))

theorem regLoad_changes_upTo (x j : Reg) (s t : State) (h : exec (.regLoad x) s = .next t)
    (hne : t.getV j ≠ s.getV j) : j ≤ x := by
  obtain hfits | hgt := Nat.lt_or_ge 0xFFF (s.ea x.val) |>.symm
  · cases (exec_regLoad_of_fits x s hfits).symm.trans h
    by_contra hx
    exact hne ((getV_loadRegs s.advance x j).trans (if_neg hx))
  · cases (exec_regLoad_of_beyond x s hgt).symm.trans h
    exact absurd rfl hne

theorem keyWait_changes_own (x j : Reg) (s t : State) (h : exec (.keyWait x) s = .next t)
    (hne : t.getV j ≠ s.getV j) : x = j ∧ s.cfg.keyWaitMode = .anyStore := by
  obtain ⟨hm, ⟨k, _, e⟩ | ⟨_, e⟩⟩ | ⟨_, ⟨_, _, e⟩ | ⟨_, _, e⟩ | ⟨_, e⟩⟩ := exec_keyWait_cases x s <;>
    cases e.symm.trans h
  · exact ⟨eq_of_setV_changes _ x j _ hne, hm⟩
  all_goals exact absurd rfl hne

/-- Settles O28 (R180, D13): by instruction; a plain register write changes VF only when its destination is VF. -/
theorem flagRegisterWriters : Obligations.FlagRegisterWriters := by
  intro i s t h hne
  cases i with
  | addReg x y => exact .inl ⟨x, y, .inl rfl⟩
  | subReg x y => exact .inl ⟨x, y, .inr (.inl rfl)⟩
  | shiftRight x y => exact .inl ⟨x, y, .inr (.inr (.inl rfl))⟩
  | shiftLeft x y => exact .inl ⟨x, y, .inr (.inr (.inr (.inl rfl)))⟩
  | subReverse x y => exact .inl ⟨x, y, .inr (.inr (.inr (.inr rfl)))⟩
  | draw x y n => exact .inr (.inl ⟨x, y, n, rfl⟩)
  | loadImm x kk =>
    cases h; cases eq_of_setV_changes _ x 15 _ hne
    exact .inr (.inr (.inl ⟨kk, .inl rfl⟩))
  | addImm x kk =>
    cases h; cases eq_of_setV_changes _ x 15 _ hne
    exact .inr (.inr (.inl ⟨kk, .inr (.inl rfl)⟩))
  | random x kk =>
    cases h; cases eq_of_setV_changes (s.drawRandom kk).2.advance x 15 _ hne
    exact .inr (.inr (.inl ⟨kk, .inr (.inr rfl)⟩))
  | move x y =>
    cases h; cases eq_of_setV_changes _ x 15 _ hne
    exact .inr (.inr (.inr (.inl ⟨y, .inl rfl⟩)))
  | or x y =>
    cases h; cases eq_of_setV_changes _ x 15 _ hne
    exact .inr (.inr (.inr (.inl ⟨y, .inr (.inl rfl)⟩)))
  | and x y =>
    cases h; cases eq_of_setV_changes _ x 15 _ hne
    exact .inr (.inr (.inr (.inl ⟨y, .inr (.inr (.inl rfl))⟩)))
  | xor x y =>
    cases h; cases eq_of_setV_changes _ x 15 _ hne
    exact .inr (.inr (.inr (.inl ⟨y, .inr (.inr (.inr rfl))⟩)))
  | timerGet x =>
    cases h; cases eq_of_setV_changes _ x 15 _ hne
    exact .inr (.inr (.inr (.inr (.inl rfl))))
  | keyWait x =>
    obtain ⟨rfl, hm⟩ := keyWait_changes_own x 15 s t h hne
    exact .inr (.inr (.inr (.inr (.inr (.inl ⟨rfl, hm⟩)))))
  | regLoad x =>
    obtain rfl : x = 15 := Fin.last_le_iff.1 (regLoad_changes_upTo x 15 s t h hne)
    exact .inr (.inr (.inr (.inr (.inr (.inr rfl)))))
  | clear | ret | syscall | jump | call | skipEqImm | skipNeqImm | skipEqReg | skipNeqReg | loadIndex | jumpIndexed
  | skipIfKey | skipIfNotKey | timerSetDelay | timerSetSound | indexAdd | fontAddr | bcdStore | regDump =>
    exact absurd (getV_of_regs_notMem _ s t 15 h (by simp [footprint])) hne

/-! ## AWAITING_KEY -/

/-- An instruction that enters AWAITING_KEY is a KEY_WAIT whose condition does not hold. -/
theorem awaiting_of_exec (i : Instr) (s t : State) (h : exec i s = .next t) (hs : s.run ≠ .awaitingKey)
    (ht : t.run = .awaitingKey) :
    ∃ x, i = .keyWait x ∧ t = s.advance.awaitKey x ∧
      (s.cfg.keyWaitMode = .designatedVx → (s.getV x).toNat < 16) := by
  by_cases hi : .run ∈ footprint i
  · obtain ⟨x, rfl⟩ := run_mem_footprint i hi
    obtain ⟨hm, ⟨_, _, e⟩ | ⟨_, e⟩⟩ | ⟨_, ⟨_, _, e⟩ | ⟨hlt, _, e⟩ | ⟨_, e⟩⟩ := exec_keyWait_cases x s <;>
      cases e.symm.trans h
    · exact absurd ht hs
    · exact ⟨x, rfl, rfl, by simp [hm]⟩
    · exact absurd ht hs
    · exact ⟨x, rfl, rfl, fun _ => hlt⟩
    · cases ht
  · obtain hf | ⟨r, rfl, _⟩ := exec_footprint i s t h
    · exact absurd ((hf .run hi).symm.trans ht) hs
    · cases ht

/-- Settles O29 (R41, R414, R140, D9, D23). -/
theorem awaitingKeyEnteredOnlyByKeyWait : Obligations.AwaitingKeyEnteredOnlyByKeyWait := by
  intro c s t h
  by_cases hc : c = .step
  · subst hc
    refine ⟨fun hs ht => ?enter, fun hs ht => .inl ⟨rfl, ?leave⟩⟩
    case enter =>
      obtain ⟨_, rfl⟩ | ⟨hwait, _⟩ | ⟨_, r, _, rfl⟩ | ⟨hrun, i, hi, hx⟩ := step_cases s t h
      · exact absurd ht hs
      · exact absurd hwait hs
      · cases ht
      · obtain ⟨x, rfl, rfl, _⟩ := awaiting_of_exec i s t hx hs ht
        exact ⟨rfl, hrun, x, hi, rfl, rfl⟩
    case leave =>
      obtain ⟨rfl, _⟩ | ⟨_, _, hrun⟩ | ⟨hrun, _⟩ | ⟨hrun, _⟩ := step_footprint s t h
      · exact absurd hs ht
      · exact hrun
      · cases hs.symm.trans hrun
      · cases hs.symm.trans hrun
  · obtain ⟨_, _, _, hquit⟩ := call_footprint c s t h hc
    refine ⟨fun hs ht => ?_, fun hs ht => .inr (hquit fun e => ht (e.trans hs))⟩
    obtain ⟨_, hstopped⟩ := hquit fun e => hs (e.symm.trans ht)
    cases ht.symm.trans hstopped

end Sys2Proof.Machine
end

section
/-! SUPPORT. The invariant of reachable states (10_state.md R70, 40_control_flow.md R157, 60_exceptions.md R401 to R405):
each clause under one instruction, then under a step, then under every host call and the boot. -/

namespace Sys2Proof.Machine

/-! ## Memory and screen as data -/

/-- Outside its footprint an instruction leaves memory and screen as they are stored, not only as they read. -/
theorem exec_contents (i : Instr) (s t : State) (h : exec i s = .next t) :
    (.mem ∉ footprint i → t.mem = s.mem) ∧ (.screen ∉ footprint i → t.screen = s.screen) := by
  cases i with
  | ret =>
    by_cases hz : s.sp.val = 0
    · cases (exec_ret_of_zero s hz).symm.trans h; exact ⟨fun _ => rfl, fun _ => rfl⟩
    · cases (exec_ret_of_succ s (s.sp.val - 1) (by omega) (by omega)).symm.trans h; exact ⟨fun _ => rfl, fun _ => rfl⟩
  | call nnn =>
    by_cases hfull : s.sp.val = 16
    · cases (exec_call_of_full nnn s hfull).symm.trans h; exact ⟨fun _ => rfl, fun _ => rfl⟩
    · cases (exec_call_of_lt nnn s (by omega)).symm.trans h; exact ⟨fun _ => rfl, fun _ => rfl⟩
  | draw x y n =>
    simp only [exec, execDraw] at h
    split at h <;> cases h <;> exact ⟨fun _ => rfl, fun hs => absurd (by simp [footprint]) hs⟩
  | bcdStore | regDump =>
    simp only [exec, execBcdStore, execRegDump] at h
    split at h <;> cases h <;> exact ⟨fun hm => absurd (by simp [footprint]) hm, fun _ => rfl⟩
  | regLoad x =>
    simp only [exec, execRegLoad] at h
    split at h <;> cases h <;> exact ⟨fun _ => rfl, fun _ => rfl⟩
  | skipIfKey | skipIfNotKey =>
    simp only [exec, execSkipIfKey, execSkipIfNotKey, keySkip] at h
    split at h <;> cases h <;> simp
  | keyWait x =>
    obtain ⟨_, ⟨_, _, e⟩ | ⟨_, e⟩⟩ | ⟨_, ⟨_, _, e⟩ | ⟨_, _, e⟩ | ⟨_, e⟩⟩ := exec_keyWait_cases x s <;>
      cases e.symm.trans h <;> exact ⟨fun _ => rfl, fun _ => rfl⟩
  | clear => cases h; exact ⟨fun _ => rfl, fun hs => absurd (by simp [footprint]) hs⟩
  | skipEqImm | skipNeqImm | skipEqReg | skipNeqReg => cases h; simp
  | syscall | jump | loadImm | addImm | move | or | and | xor | addReg | subReg | shiftRight | shiftLeft | subReverse
  | loadIndex | jumpIndexed | random | timerGet | timerSetDelay | timerSetSound | indexAdd | fontAddr =>
    cases h; exact ⟨fun _ => rfl, fun _ => rfl⟩

/-- The stores write only where the address space is. -/
theorem exec_mem_wf (i : Instr) (s t : State) (h : exec i s = .next t) (hm : s.mem.wf) : t.mem.wf := by
  by_cases hi : .mem ∈ footprint i
  · obtain ⟨x, rfl | rfl⟩ := mem_mem_footprint i hi
    · obtain hfits | hgt := Nat.lt_or_ge 0xFFF (s.ea 2) |>.symm
      · cases (exec_bcdStore_of_fits x s hfits).symm.trans h
        exact writeBytes_wf _ _ _ hm (Nat.succ_le_succ hfits)
      · cases (exec_bcdStore_of_beyond x s hgt).symm.trans h
        exact hm
    · obtain hfits | hgt := Nat.lt_or_ge 0xFFF (s.ea x.val) |>.symm
      · cases (exec_regDump_of_fits x s hfits).symm.trans h
        refine writeBytes_wf _ _ _ hm ?_
        rw [length_regsUpTo]
        exact Nat.succ_le_succ hfits
      · cases (exec_regDump_of_beyond x s hgt).symm.trans h
        exact hm
  · rw [(exec_contents i s t h).1 hi]
    exact hm

/-- CLEAR blanks the screen, and a sprite is plotted inside it. -/
theorem exec_screen_wf (i : Instr) (s t : State) (h : exec i s = .next t) (hc : s.cfg.wf) (hs : s.screen.wf s.cfg) :
    t.screen.wf s.cfg := by
  by_cases hi : .screen ∈ footprint i
  · obtain rfl | ⟨x, y, n, rfl⟩ := screen_mem_footprint i hi
    · cases h; exact blank_wf s.cfg
    · simp only [exec, execDraw] at h
      split at h <;> cases h
      · exact plotSprite_wf s.cfg hc _ _ _ _ _ hs
      · exact hs
  · rw [(exec_contents i s t h).2 hi]
    exact hs

/-! ## PC and the stack (R157) -/

theorem toNat_add_two (w : Word) (h : w.toNat ≤ 0xFFE) : (w + 2).toNat = w.toNat + 2 := by
  rw [BitVec.toNat_add, show BitVec.toNat (2 : Word) = 2 from rfl]; omega

theorem advance_pc_le (s : State) (h : s.pc.toNat ≤ 0xFFE) : s.advance.pc.toNat ≤ 0x10FE := by
  rw [advance_pc, toNat_add_two s.pc h]; omega

theorem skipIf_pc_le (s : State) (c : Bool) (h : s.pc.toNat ≤ 0xFFE) : (s.advance.skipIf c).pc.toNat ≤ 0x10FE := by
  have h2 := toNat_add_two s.pc h
  cases c with
  | false => exact advance_pc_le s h
  | true =>
    rw [skipIf_true_pc, BitVec.toNat_add, show BitVec.toNat (4 : Word) = 4 from rfl]; omega

/-- From a fetched PC an instruction goes at most to 0x10FE: the highest target is JUMP_INDEXED's. -/
theorem exec_pc_le (i : Instr) (s t : State) (h : exec i s = .next t) (hpc : s.pc.toNat ≤ 0xFFE)
    (hstack : ∀ j : Fin 16, s.stack[j].toNat ≤ 0x1000) : t.pc.toNat ≤ 0x10FE := by
  have hstay : s.pc.toNat ≤ 0x10FE := by omega
  cases i with
  | ret =>
    by_cases hz : s.sp.val = 0
    · cases (exec_ret_of_zero s hz).symm.trans h; exact hstay
    · cases (exec_ret_of_succ s (s.sp.val - 1) (by omega) (by omega)).symm.trans h
      exact (hstack ⟨s.sp.val - 1, by omega⟩).trans (by decide)
  | jump nnn =>
    cases h
    rw [setPc_pc, toNat_addrOperand]; omega
  | call nnn =>
    by_cases hfull : s.sp.val = 16
    · cases (exec_call_of_full nnn s hfull).symm.trans h; exact hstay
    · cases (exec_call_of_lt nnn s (by omega)).symm.trans h
      rw [setPc_pc, toNat_addrOperand]; omega
  | jumpIndexed nnn =>
    cases h
    rw [setPc_pc, toNat_addrOperand_add]; omega
  | skipEqImm | skipNeqImm | skipEqReg | skipNeqReg => cases h; exact skipIf_pc_le s _ hpc
  | skipIfKey | skipIfNotKey =>
    simp only [exec, execSkipIfKey, execSkipIfNotKey, keySkip] at h
    split at h <;> cases h
    · exact skipIf_pc_le s _ hpc
    · exact hstay
  | keyWait x =>
    obtain ⟨_, ⟨_, _, e⟩ | ⟨_, e⟩⟩ | ⟨_, ⟨_, _, e⟩ | ⟨_, _, e⟩ | ⟨_, e⟩⟩ := exec_keyWait_cases x s <;>
      cases e.symm.trans h
    case keyWait.inr.inr.inr.refl => exact hstay
    all_goals exact advance_pc_le s hpc
  | draw | bcdStore | regDump | regLoad =>
    simp only [exec, execDraw, execBcdStore, execRegDump, execRegLoad] at h
    split at h <;> cases h
    · exact advance_pc_le s hpc
    · exact hstay
  | clear | syscall | loadImm | addImm | move | or | and | xor | addReg | subReg | shiftRight | shiftLeft | subReverse
  | loadIndex | random | timerGet | timerSetDelay | timerSetSound | indexAdd | fontAddr =>
    cases h; exact advance_pc_le s hpc

/-- What R157 says of a slot. -/
abbrev SlotOk (a : Word) : Prop := a.toNat ≤ 0x1000 ∧ a.toNat % 2 = 0

/-- The address a CALL pushes follows a fetched PC. -/
theorem slotOk_add_two (a : Word) (hle : a.toNat ≤ 0xFFE) (heven : a.toNat % 2 = 0) : SlotOk (a + 2) := by
  rw [SlotOk, toNat_add_two a hle]; omega

theorem stack_mem_footprint (i : Instr) (h : .stack ∈ footprint i) : ∃ nnn, i = .call nnn := by
  cases i <;> simp_all [footprint]

theorem exec_stack_slot (i : Instr) (s t : State) (h : exec i s = .next t) (hle : s.pc.toNat ≤ 0xFFE)
    (heven : s.pc.toNat % 2 = 0) (hs : ∀ j : Fin 16, SlotOk s.stack[j]) (j : Fin 16) : SlotOk t.stack[j] := by
  by_cases hi : .stack ∈ footprint i
  · obtain ⟨nnn, rfl⟩ := stack_mem_footprint i hi
    by_cases hfull : s.sp.val = 16
    · cases (exec_call_of_full nnn s hfull).symm.trans h; exact hs j
    · have hlt : s.sp.val < 16 := by omega
      cases (exec_call_of_lt nnn s hlt).symm.trans h
      change SlotOk (s.stack.set s.sp.val (s.pc + 2) hlt)[j.val]
      rw [Vector.getElem_set]
      split
      · exact slotOk_add_two s.pc hle heven
      · exact hs j
  · have hstack : t.stack[j] = s.stack[j] := by
      obtain hf | ⟨r, rfl, _⟩ := exec_footprint i s t h
      · exact hf .stack hi j
      · rfl
    rw [hstack]
    exact hs j

/-! ## Faults -/

/-- A fatal error with a record of its kind keeps the invariant. -/
theorem raise_inv (s : State) (r : FaultRecord) (h : s.Inv) (hr : r.wf = true) : (s.raise r).Inv :=
  { cfg_wf := h.cfg_wf, index_le := h.index_le, pc_le := h.pc_le, stack_slot := h.stack_slot, mem_wf := h.mem_wf,
    screen_wf := h.screen_wf, fault_run := by simp, fault_wf := by simp [hr], wait_key := by simp }

theorem fault_notMem_footprint (i : Instr) : .fault ∉ footprint i := by
  cases i <;> simp [footprint]

/-- No fault is recorded while a run goes on. -/
theorem State.Inv.no_fault {s : State} (h : s.Inv) (hs : s.run ≠ .faulted) : s.fault = none := by
  by_contra hne
  exact hs (h.fault_run.2 (Option.isSome_iff_ne_none.2 hne))

/-! ## The step -/

/-- A fetched instruction keeps the invariant. -/
theorem exec_inv (i : Instr) (s t : State) (h : s.Inv) (hrun : s.run = .running) (hi : s.fetchDecode = .ok i)
    (hx : exec i s = .next t) : t.Inv := by
  have hs : s.run ≠ .faulted := by simp [hrun]
  by_cases ht : t.run = .faulted
  · obtain ⟨r, rfl, hwf, _⟩ := raised_of_faulted i s t hx hs ht
    exact raise_inv s r h hwf
  · have hf : OnlyChanges (footprint i) s t := (exec_footprint i s t hx).resolve_right fun ⟨_, hr, _⟩ => ht (hr ▸ rfl)
    have hcfg : t.cfg = s.cfg := hf .cfg (cfg_notMem_footprint i)
    have hfault : t.fault = none := (hf .fault (fault_notMem_footprint i)).trans (h.no_fault hs)
    obtain ⟨heven, hle, _⟩ := fetchDecode_ok s i hi
    exact
      { cfg_wf := hcfg ▸ h.cfg_wf
        index_le := (exec_index i s t hx).elim (fun e => e ▸ h.index_le) id
        pc_le := exec_pc_le i s t hx hle fun j => (h.stack_slot j).1
        stack_slot := exec_stack_slot i s t hx hle heven h.stack_slot
        mem_wf := exec_mem_wf i s t hx h.mem_wf
        screen_wf := hcfg ▸ exec_screen_wf i s t hx h.cfg_wf h.screen_wf
        fault_run := by simp [ht, hfault]
        fault_wf := by simp [hfault]
        wait_key := fun hwait hm => by
          obtain ⟨x, rfl, rfl, hlt⟩ := awaiting_of_exec i s t hx (by simp [hrun]) hwait
          exact Nat.le_of_lt_succ (hlt hm) }

/-- Leaving a live run state for another one that is neither FAULTED nor AWAITING_KEY keeps the invariant, whatever the
registers. -/
theorem inv_of_run (s : State) (v : Vector Byte 16) (r : RunState) (h : s.Inv) (hs : s.run ≠ .faulted)
    (hr : r = .running ∨ r = .stopped) : State.Inv { s with v := v, run := r } := by
  have hfault := h.no_fault hs
  exact { cfg_wf := h.cfg_wf, index_le := h.index_le, pc_le := h.pc_le, stack_slot := h.stack_slot, mem_wf := h.mem_wf,
          screen_wf := h.screen_wf, fault_run := by obtain rfl | rfl := hr <;> simp [hfault], fault_wf := h.fault_wf,
          wait_key := by obtain rfl | rfl := hr <;> simp }

/-- A poll keeps the invariant. -/
theorem keyWaitPoll_inv (s : State) (h : s.Inv) (hrun : s.run = .awaitingKey) : (keyWaitPoll s).Inv := by
  have hs : s.run ≠ .faulted := by simp [hrun]
  obtain e | e | ⟨k, _, _, e⟩ := keyWaitPoll_cases s <;> rw [e]
  · exact h
  · exact inv_of_run s s.v .running h hs (.inl rfl)
  · exact inv_of_run s _ .running h hs (.inl rfl)

theorem step_inv (s t : State) (h : s.Inv) (hstep : step s = .next t) : t.Inv := by
  obtain ⟨_, rfl⟩ | ⟨hrun, rfl⟩ | ⟨_, r, hr, rfl⟩ | ⟨hrun, i, hi, hx⟩ := step_cases s t hstep
  · exact h
  · exact keyWaitPoll_inv s h hrun
  · exact raise_inv s r h (fetch_fault_names s r hr).1
  · exact exec_inv i s t h hrun hi hx

/-- Settles O20 (R157, R12, R39, R401, R405, R294): by what a step can be. -/
theorem everyStepKeepsInvariant : Obligations.EveryStepKeepsInvariant := step_inv

/-! ## The other calls and the boot -/

/-- The invariant says nothing of the timers, the keys and the redraw-pending flag. -/
theorem inv_of_free_parts (s : State) (dt st : Byte) (keys : Word) (redraw : Bool) (h : s.Inv) :
    State.Inv { s with dt := dt, st := st, keys := keys, redraw := redraw } :=
  { cfg_wf := h.cfg_wf, index_le := h.index_le, pc_le := h.pc_le, stack_slot := h.stack_slot, mem_wf := h.mem_wf,
    screen_wf := h.screen_wf, fault_run := h.fault_run, fault_wf := h.fault_wf, wait_key := h.wait_key }

theorem tickTimers_inv (s : State) (h : s.Inv) : (tickTimers s).Inv := by
  unfold tickTimers
  split
  · exact inv_of_free_parts s _ _ _ _ h
  · exact inv_of_free_parts s _ _ _ _ h
  · exact h
  · exact h

theorem quit_inv (s : State) (h : s.Inv) : (quit s).Inv := by
  unfold quit
  split <;> rename_i hrun
  · exact inv_of_run s s.v .stopped h (by simp [hrun]) (.inr rfl)
  · exact inv_of_run s s.v .stopped h (by simp [hrun]) (.inr rfl)
  · exact h
  · exact h

theorem after_inv (c : HostCall) (s t : State) (h : s.Inv) (ht : c.after s = .next t) : t.Inv := by
  cases c with
  | step => exact step_inv s t h ht
  | tickTimers => cases ht; exact tickTimers_inv s h
  | setKey k => cases ht; exact inv_of_free_parts s _ _ _ _ h
  | unsetKey k => cases ht; exact inv_of_free_parts s _ _ _ _ h
  | quit => cases ht; exact quit_inv s h
  | readBuffer => cases ht; exact inv_of_free_parts s _ _ _ _ h
  | redrawPending | isAwaitingKey | faultStatus | soundActive => cases ht; exact h

theorem load_inv (data : List Byte) (offset : Word) (s : State) (h : s.Inv) : (load data offset s).Inv := by
  obtain hfits | hgt := Nat.lt_or_ge 4096 (offset.toNat + data.length) |>.symm
  · rw [load_of_fits data offset s hfits]
    exact { cfg_wf := h.cfg_wf, index_le := h.index_le, pc_le := h.pc_le, stack_slot := h.stack_slot,
            mem_wf := writeBytes_wf data _ _ h.mem_wf hfits, screen_wf := h.screen_wf, fault_run := h.fault_run,
            fault_wf := h.fault_wf, wait_key := h.wait_key }
  · rw [load_of_overflow data offset s hgt]
    exact raise_inv s _ h rfl

/-- Settles O21 (R70, R450, R453): by induction on the run, from the boot's two loads on. -/
theorem reachableStatesMeetInvariant : Obligations.ReachableStatesMeetInvariant := by
  intro s hs
  induction hs with
  | boot cfg rom h => exact load_inv _ _ _ (load_inv _ _ _ (fresh_inv cfg h))
  | call c s t _ ht ih => exact after_inv c s t ih ht

end Sys2Proof.Machine
end

section
/-! SUPPORT. What no step reads (10_state.md R37, 43_display.md R265, 60_exceptions.md R402; log entry 6): ST, the
redraw-pending flag, FAULT and the event list. A state is compared with itself under other values of these four. -/

namespace Sys2Proof.Machine

/-- `s` with the four unread components of `u`. -/
def State.withUnread (s u : State) : State :=
  { s with st := u.st, redraw := u.redraw, fault := u.fault, events := u.events }

/-! ## What a step reads is the same -/

variable (s u : State)

@[simp] theorem withUnread_cfg : (s.withUnread u).cfg = s.cfg := rfl
@[simp] theorem withUnread_waitX : (s.withUnread u).waitX = s.waitX := rfl
@[simp] theorem withUnread_getV (j : Reg) : (s.withUnread u).getV j = s.getV j := rfl
@[simp] theorem withUnread_lowestKey : (s.withUnread u).lowestKey = s.lowestKey := rfl

/-! ## So the results agree outside the four -/

/-- `t'` differs from `t` at most in the four. -/
abbrev SameRead (t t' : State) : Prop := t' = t.withUnread t'

theorem sameRead_ite {c : Prop} [Decidable c] {a b a' b' : State} (ha : SameRead a a') (hb : SameRead b b') :
    SameRead (if c then a else b) (if c then a' else b') := by
  split
  · exact ha
  · exact hb

theorem keyWaitPoll_sameRead : SameRead (keyWaitPoll s) (keyWaitPoll (s.withUnread u)) := by
  unfold keyWaitPoll
  simp only [withUnread_cfg, withUnread_lowestKey, withUnread_getV, withUnread_waitX]
  split
  · split <;> rfl
  · split
    · exact sameRead_ite (c := s.keyHeld _ = true) rfl rfl
    · rfl

theorem skipIf_sameRead (c : Bool) : SameRead (s.advance.skipIf c) ((s.withUnread u).advance.skipIf c) := by
  cases c <;> rfl

/-- An instruction run from both states: the branch it takes depends on read components only. -/
theorem exec_sameRead (i : Instr) (t t' : State) (h : exec i s = .next t) (h' : exec i (s.withUnread u) = .next t') :
    SameRead t t' := by
  cases i with
  | ret =>
    by_cases hz : s.sp.val = 0
    · cases (exec_ret_of_zero s hz).symm.trans h
      cases (exec_ret_of_zero (s.withUnread u) hz).symm.trans h'
      rfl
    · have hpos : s.sp.val = (s.sp.val - 1) + 1 := by omega
      cases (exec_ret_of_succ s _ (by omega) hpos).symm.trans h
      cases (exec_ret_of_succ (s.withUnread u) _ (by omega) hpos).symm.trans h'
      rfl
  | call nnn =>
    by_cases hfull : s.sp.val = 16
    · cases (exec_call_of_full nnn s hfull).symm.trans h
      cases (exec_call_of_full nnn (s.withUnread u) hfull).symm.trans h'
      rfl
    · have hlt : s.sp.val < 16 := by omega
      cases (exec_call_of_lt nnn s hlt).symm.trans h
      cases (exec_call_of_lt nnn (s.withUnread u) hlt).symm.trans h'
      rfl
  | draw | bcdStore | regDump | regLoad =>
    simp only [exec, execDraw, execBcdStore, execRegDump, execRegLoad] at h h'
    split at h <;> rename_i hr <;> split at h' <;> rename_i hr' <;> cases h <;> cases h'
    · rfl
    · exact absurd hr hr'
    · exact absurd hr' hr
    · rfl
  | skipIfKey x | skipIfNotKey x =>
    simp only [exec, execSkipIfKey, execSkipIfNotKey, keySkip, withUnread_getV] at h h'
    cases hk : keyIndex (s.getV x) <;> rw [hk] at h h' <;> cases h <;> cases h'
    · rfl
    · exact skipIf_sameRead s u _
  | keyWait x =>
    simp only [exec, execKeyWait, withUnread_cfg, withUnread_lowestKey, withUnread_getV] at h h'
    cases hm : s.cfg.keyWaitMode <;> rw [hm] at h h'
    · cases hk : s.lowestKey <;> simp only [hk] at h h' <;> cases h <;> cases h' <;> rfl
    · cases hk : keyIndex (s.getV x) <;> simp only [hk] at h h' <;> cases h <;> cases h'
      · rfl
      · exact sameRead_ite (c := s.keyHeld _ = true) rfl rfl
  | skipEqImm | skipNeqImm | skipEqReg | skipNeqReg => cases h; cases h'; exact skipIf_sameRead s u _
  | clear | syscall | jump | loadImm | addImm | move | or | and | xor | addReg | subReg | shiftRight | shiftLeft
  | subReverse | loadIndex | jumpIndexed | random | timerGet | timerSetDelay | timerSetSound | indexAdd | fontAddr =>
    cases h; cases h'; rfl

/-- A step of both states: they are in the same run state and fetch the same instruction. -/
theorem step_sameRead (t t' : State) (h : step s = .next t) (h' : step (s.withUnread u) = .next t') :
    SameRead t t' := by
  cases hrun : s.run with
  | faulted | stopped =>
    have hend : s.run = .faulted ∨ s.run = .stopped := by simp [hrun]
    cases (step_of_ended s hend).symm.trans h
    cases (step_of_ended (s.withUnread u) hend).symm.trans h'
    rfl
  | awaitingKey =>
    cases (step_of_awaiting s hrun).symm.trans h
    cases (step_of_awaiting (s.withUnread u) hrun).symm.trans h'
    exact keyWaitPoll_sameRead s u
  | running =>
    cases hf : s.fetchDecode with
    | error r =>
      cases (step_of_fetch_fault s r hrun hf).symm.trans h
      cases (step_of_fetch_fault (s.withUnread u) r hrun hf).symm.trans h'
      rfl
    | ok i =>
      rw [step_of_fetched s i hrun hf] at h
      rw [step_of_fetched (s.withUnread u) i hrun hf] at h'
      exact exec_sameRead s u i t t' h h'

/-- Settles O30 (R37, R265, log entry 6): the second state is the first with other values of the four. -/
theorem unreadStateDoesNotInterfere : Obligations.UnreadStateDoesNotInterfere := by
  intro s s' t t' hs h h'
  have hs : s' = s.withUnread s' := hs
  rw [hs] at h'
  exact step_sameRead s s' t t' h h'

end Sys2Proof.Machine
end
